-- ==== Sys2Proof/Word.lean ====
section
/-! DEFINITION. The value types of the block (`10_state.md` rule R24): bits, bytes, command words, code points and
their sequences. Every number of the block is unsigned (`00_scope.md` rule R8). -/

namespace Sys2Proof

/-- A byte, a codeword, a field element: 8 bits, bit 7 most significant (R8, R24). -/
abbrev Byte := BitVec 8

/-- The 32-bit command word `CMD` (R50). -/
abbrev Word := BitVec 32

/-- A finite sequence of bits, first appended bit first (R24, R31). -/
abbrev BitSeq := List Bool

/-- A finite sequence of bytes, first codeword first (R24, R32). -/
abbrev ByteSeq := List Byte

/-- A polynomial over the field: a non-empty sequence of coefficients, index 0 the coefficient of x^0 (R18, R24). The
first element stands apart, so no empty one can be built. -/
structure Poly where
  /-- The coefficient of x^0. -/
  constTerm : Byte
  /-- The coefficients of x^1, x^2 and so on. -/
  higher : List Byte
  deriving DecidableEq, Repr

/-- A Unicode scalar value, 0..0x10FFFF without the surrogates (R24): Lean's `Char` is exactly that set, so a text
that is not a sequence of valid code points cannot be written (R168 (b), notes/assumptions/7.md). -/
abbrev CodePoint := Char

/-- A finite sequence of code points, first character first (R24, R32). -/
abbrev Text := List CodePoint

end Sys2Proof
end

