-- ==== Sys2Proof/Config.lean ====
section
/-! DEFINITION. What an implementation fixes and the spec leaves OPEN (`00_scope.md` rule R7): the number of
error-correction codewords per level and the code points that count as Han, Hiragana or Katakana. Both are constants
with no body: no proof can see their values. -/

namespace Sys2Proof.Config

/-- A value of the open parameter `NEC` for each level (R7, R131, D14), each entry held as `NEC - 1`. The bounds are
those of R131: `1 <= NEC(l)` and `CAPACITY[l] + NEC(l) <= 255`, so `NEC(L) <= 175`, `NEC(M) <= 191`,
`NEC(Q) <= 207`, `NEC(H) <= 219`. -/
structure NecTable where
  l : Fin 175
  m : Fin 191
  q : Fin 207
  h : Fin 219
  deriving DecidableEq, Repr, Inhabited

/-- `NEC`, which the source never gives (N3): a free constant, DESIGN CHOICE, safe, notes/assumptions/4.md. -/
opaque necTable : NecTable

/-- `IS_KANJI_CLASS` where rules R62 and R102 do not fix it (D8): a free constant, DESIGN CHOICE, safe,
notes/assumptions/5.md. -/
opaque kanjiElsewhere : CodePoint → Bool

end Sys2Proof.Config
end

