-- ==== Sys2Proof/Syntax.lean ====
section
/-! DEFINITION. What the host can ask for: the closed enumerations `Mode` and `ECLevel`, the sequence operands, and
the eight operations, one constructor of `Instr` per row of `spec/opcode_table.json` (`30_encoding.md` rules R50,
R55). -/

namespace Sys2Proof

/-- A data-encoding mode, "a closed four-value enumeration" (R24). -/
inductive Mode where
  | numeric
  | alphanumeric
  | byte
  | kanji
  deriving DecidableEq, Repr

/-- An error-correction level, "a closed four-value enumeration" (R24). -/
inductive ECLevel where
  | L
  | M
  | Q
  | H
  deriving DecidableEq, Repr

/-- An encoded segment (R24): mode indicator, character-count indicator and data bits, and the mode they were built
for. -/
structure Segment where
  mode : Mode
  mi : BitSeq
  cci : BitSeq
  data : BitSeq
  deriving DecidableEq, Repr

/-- Which sequence operand travels beside a command word (R50). -/
inductive OperandKind where
  | none
  | data
  | text
  | seg
  deriving DecidableEq, Repr

/-- The sequence operand of a request (R10, R50): `DATA` for `RSENC`; `TEXT` for `CLASSIFY`, `SEGENC`, `ENCSYM`;
`SEG` for `ASSEMBLE`; none for the other three. -/
inductive SeqOperand where
  | none
  | data (d : ByteSeq)
  | text (t : Text)
  | seg (g : Segment)
  deriving DecidableEq, Repr

/-- An operation with the operands its command word carries (R50, R55). -/
inductive Instr where
  /-- `GFADD a, b -> r` (R70). -/
  | gfadd (a b : Byte)
  /-- `GFMUL a, b -> r` (R71). -/
  | gfmul (a b : Byte)
  /-- `GENPOLY k -> g` (R81). -/
  | genpoly (k : Byte)
  /-- `RSENC data, k -> cw` (R90). -/
  | rsenc (k : Byte)
  /-- `CLASSIFY text -> mode` (R100). -/
  | classify
  /-- `SEGENC text, mode, level -> seg` (R110). -/
  | segenc (mode : Mode) (level : ECLevel)
  /-- `ASSEMBLE seg, level -> cw` (R125). -/
  | assemble (level : ECLevel)
  /-- `ENCSYM text, level -> cw` (R130). -/
  | encsym (level : ECLevel)
  deriving DecidableEq, Repr

end Sys2Proof
end

