-- ==== Sys2Proof/Machine/Constants.lean ====
section
/-! DEFINITION. The constant tables of the block (`00_scope.md` rule R6, `10_state.md` rule R15): "plain constant
tables, not mutable globals". No operation writes one and no interface reads one. -/

namespace Sys2Proof.Machine

/-- `POLY`, the reduction constant x^8+x^4+x^3+x^2+1 in 9 bits (R2, R6, R74, C1). -/
def poly : BitVec 9 := 0x11D#9

/-- `ALPHA`, the generator element of the field (R6). -/
def alpha : Byte := 2#8

/-- `MAX_RS_SYMBOLS`, the ceiling on `len(data) + num_ec_codewords` (R6, R91). -/
def maxRsSymbols : Nat := 255

/-- `MODE_IND`, the 4-bit mode indicator (R6, R51). -/
def modeInd : Mode → BitVec 4
  | .numeric => 0b0001#4
  | .alphanumeric => 0b0010#4
  | .byte => 0b0100#4
  | .kanji => 0b1000#4

/-- `MODE_IND_BITS`, the width of the mode indicator (R6). -/
def modeIndBits : Nat := 4

/-- `COUNT_BITS`, the width of the character-count indicator (R6). -/
def countBits : Mode → Nat
  | .numeric => 10
  | .alphanumeric => 9
  | .byte => 8
  | .kanji => 8

/-- `ALNUM_RADIX`, the size of the alphanumeric alphabet and the pair multiplier (R6). -/
def alnumRadix : Nat := 45

/-- `PAD0`, the first pad byte (R6). -/
def pad0 : Byte := 0xEC#8

/-- `PAD1`, the second pad byte (R6). -/
def pad1 : Byte := 0x11#8

/-- `CAPACITY`, the data-codeword capacity in bytes of each level (R6, C2). -/
def capacity : ECLevel → Nat
  | .L => 80
  | .M => 64
  | .Q => 48
  | .H => 36

/-- `NEC(level)`, the number of error-correction codewords `ENCSYM` asks for (R7, R131): the open constant of
`Config`. -/
def nec : ECLevel → Nat
  | .L => Config.necTable.l.val + 1
  | .M => Config.necTable.m.val + 1
  | .Q => Config.necTable.q.val + 1
  | .H => Config.necTable.h.val + 1

end Sys2Proof.Machine
end

