-- ==== Sys2Proof/Decode.lean ====
section
/-! DEFINITION. The command word (`30_encoding.md` rules R50 to R52, R55, R56): decoding, total on all 2^32 words and
rejecting by name, and the encoder written from the same table. The encoding is the spec's own (D3). -/

namespace Sys2Proof

/-- Why a command word "spells no request of this block" (R56 (a) to (d)). -/
inductive Reject where
  /-- (a) `OP` in `0x8..0xF`. -/
  | reservedOp
  /-- (b) `RSV` not zero. -/
  | reservedBits
  /-- (c) a non-zero value in a field the operation does not use. -/
  | unusedField
  /-- (d) `SEGENC` with a `MODE` field that is none of the four indicators. -/
  | notAMode
  deriving DecidableEq, Repr

/-- `CMD[3:0]`, `OP`. -/
def opField (w : Word) : BitVec 4 := w.extractLsb' 0 4

/-- `CMD[7:4]`, `MODE`. -/
def modeField (w : Word) : BitVec 4 := w.extractLsb' 4 4

/-- `CMD[9:8]`, `LEVEL`. -/
def levelField (w : Word) : BitVec 2 := w.extractLsb' 8 2

/-- `CMD[15:10]`, `RSV`. -/
def rsvField (w : Word) : BitVec 6 := w.extractLsb' 10 6

/-- `CMD[23:16]`, `A` or `K`. -/
def aField (w : Word) : Byte := w.extractLsb' 16 8

/-- `CMD[31:24]`, `B`. -/
def bField (w : Word) : Byte := w.extractLsb' 24 8

/-- The mode a 4-bit code names; "the twelve other four-bit values name no mode" (R51). -/
def modeOfCode (c : BitVec 4) : Option Mode :=
  if c = 0b0001#4 then some .numeric
  else if c = 0b0010#4 then some .alphanumeric
  else if c = 0b0100#4 then some .byte
  else if c = 0b1000#4 then some .kanji
  else none

/-- The code of a level: L = 0, M = 1, Q = 2, H = 3 (R52). -/
def levelCode : ECLevel → BitVec 2
  | .L => 0b00#2
  | .M => 0b01#2
  | .Q => 0b10#2
  | .H => 0b11#2

/-- The level a 2-bit code names; "all four values are used" (R52). -/
def levelOfCode (c : BitVec 2) : ECLevel :=
  if c = 0b00#2 then .L
  else if c = 0b01#2 then .M
  else if c = 0b10#2 then .Q
  else .H

/-- "A field an operation does not use must be zero" (R50, R56 (c)). -/
def whenUnusedZero (unusedAreZero : Bool) (r : Except Reject Instr) : Except Reject Instr :=
  if unusedAreZero then r else .error .unusedField

/-- The operation a command word selects (R50, R55), or why it is reserved (R56). -/
def decode (w : Word) : Except Reject Instr :=
  if rsvField w ≠ 0#6 then .error .reservedBits
  else match (opField w).toNat with
    | 0 => whenUnusedZero (modeField w == 0#4 && levelField w == 0#2) (.ok (.gfadd (aField w) (bField w)))
    | 1 => whenUnusedZero (modeField w == 0#4 && levelField w == 0#2) (.ok (.gfmul (aField w) (bField w)))
    | 2 => whenUnusedZero (modeField w == 0#4 && levelField w == 0#2 && bField w == 0#8) (.ok (.genpoly (aField w)))
    | 3 => whenUnusedZero (modeField w == 0#4 && levelField w == 0#2 && bField w == 0#8) (.ok (.rsenc (aField w)))
    | 4 => whenUnusedZero (modeField w == 0#4 && levelField w == 0#2 && aField w == 0#8 && bField w == 0#8) (.ok .classify)
    | 5 => whenUnusedZero (aField w == 0#8 && bField w == 0#8)
             (match modeOfCode (modeField w) with
              | some m => .ok (.segenc m (levelOfCode (levelField w)))
              | none => .error .notAMode)
    | 6 => whenUnusedZero (modeField w == 0#4 && aField w == 0#8 && bField w == 0#8)
             (.ok (.assemble (levelOfCode (levelField w))))
    | 7 => whenUnusedZero (modeField w == 0#4 && aField w == 0#8 && bField w == 0#8)
             (.ok (.encsym (levelOfCode (levelField w))))
    | _ => .error .reservedOp

/-- A command word from its fields, `RSV` zero (R50). -/
def commandWord (b a : Byte) (level : BitVec 2) (mode op : BitVec 4) : Word :=
  b ++ a ++ 0#6 ++ level ++ mode ++ op

/-- The command word of an operation (R50, R55), unused fields zero. -/
def encode : Instr → Word
  | .gfadd a b => commandWord b a 0#2 0#4 0x0#4
  | .gfmul a b => commandWord b a 0#2 0#4 0x1#4
  | .genpoly k => commandWord 0#8 k 0#2 0#4 0x2#4
  | .rsenc k => commandWord 0#8 k 0#2 0#4 0x3#4
  | .classify => commandWord 0#8 0#8 0#2 0#4 0x4#4
  | .segenc m l => commandWord 0#8 0#8 (levelCode l) (Machine.modeInd m) 0x5#4
  | .assemble l => commandWord 0#8 0#8 (levelCode l) 0#4 0x6#4
  | .encsym l => commandWord 0#8 0#8 (levelCode l) 0#4 0x7#4

/-- The command word in the low `nbits` bits of `w`, every bit above zero; none where it does not fit the one length
of 32 bits (R50). -/
def tableWord (nbits w : Nat) : Option Word :=
  if w % 2 ^ nbits < 2 ^ 32 then some (BitVec.ofNat 32 (w % 2 ^ nbits)) else none

/-- What `decode` reads from a word numbered as `spec/opcode_table.json` numbers it. -/
def decodeTableWord (nbits w : Nat) : Option Instr :=
  match tableWord nbits w with
  | none => none
  | some v =>
    match decode v with
    | .ok i => some i
    | .error _ => none

end Sys2Proof
end

