-- ==== Sys2Proof/Machine/State.lean ====
section
/-! DEFINITION. The machine's state as plain data (`10_state.md`, `INVENTORY.md` '## State'), the ways a step can
stop, and the state after reset. -/

namespace Sys2Proof.Machine

/-- The status of a response (R24, R53). -/
inductive Status where
  | ok
  | invalidInput
  | capacityExceeded
  | unsupported
  deriving DecidableEq, Repr

/-- A cause of an error with the `info` of `60_exceptions.md` rules R140 and R141 (R142 for Kanji). The `info` is the
model's aid, no field of the interface (R143, U12; DESIGN CHOICE, safe, notes/assumptions/9.md). -/
inductive Cause where
  /-- "Empty message": `len(DATA) = 0` (R140). -/
  | emptyData
  /-- Non-positive EC codeword count: `K = 0` (R140). -/
  | zeroEcCount
  /-- Field-size overflow; the info is `len(DATA) + K` (R140). -/
  | fieldSizeOverflow (total : Nat)
  /-- A character outside the mode's alphabet; the info is the position of the first (R140). -/
  | misfitCharacter (position : Nat)
  /-- The character count does not fit its field; the info is the count (R141). -/
  | countTooLarge (count : Nat)
  /-- More bytes than the level's capacity; the info is both (R141). -/
  | overCapacity (bytes cap : Nat)
  /-- No packer for Kanji mode (R142, R116). -/
  | kanjiMode
  deriving DecidableEq, Repr

/-- The one result field of a successful response (R11). -/
inductive Result where
  /-- `R` of `GFADD` and `GFMUL`. -/
  | byte (r : Byte)
  /-- `G` of `GENPOLY`. -/
  | generator (g : Poly)
  /-- `CW` of `RSENC`, `ASSEMBLE` and `ENCSYM`. -/
  | codewords (cw : ByteSeq)
  /-- `MODE` of `CLASSIFY`. -/
  | mode (m : Mode)
  /-- `SEG` of `SEGENC`. -/
  | segment (g : Segment)
  deriving DecidableEq, Repr

/-- A response (R11): either `OK` with its result field or an error and no result field at all. `STATUS` is
`Response.status`. -/
inductive Response where
  | done (result : Result)
  | raised (cause : Cause)
  deriving DecidableEq, Repr

/-- A request (R10, R50): the command word and the sequence operand beside it. -/
structure Request where
  cmd : Word
  operand : SeqOperand
  deriving DecidableEq, Repr

/-- What the host does next: issue a request (R12), or move the reset line (R160). -/
inductive HostAction where
  /-- Issue a request and wait for its response (R168). -/
  | issue (r : Request)
  /-- Issue a request and assert reset while it is in progress, before its response exists (R160). -/
  | issueThenReset (r : Request)
  | assertReset
  | releaseReset
  deriving DecidableEq, Repr

/-- Which pad byte comes next (R20, R129). -/
inductive PadPhase where
  | pad0Next
  | pad1Next
  deriving DecidableEq, Repr

/-- The working state of one operation (R16 to R20), invisible to the host. Every operation initialises what it uses
and all of it is discarded with the response (R21). -/
structure Work where
  /-- `BS`, the bit stream accumulator (R16). -/
  bs : BitSeq
  /-- `CWBUF`, the codeword view (R17). -/
  cwbuf : ByteSeq
  /-- `G`, the generator polynomial register (R18). -/
  g : Poly
  /-- `W`, the Reed-Solomon working buffer, index 0 the highest degree (R19). -/
  w : ByteSeq
  /-- `r` of `poly_mul`, the product under construction (R80). -/
  prod : Poly
  /-- `i` of `poly_mul` (R20). -/
  mulI : Nat
  /-- `j` of `poly_mul` (R20). -/
  mulJ : Nat
  /-- The factor index `i` of `GENPOLY` (R20). -/
  factor : Nat
  /-- The running power of `gf_exp` (R20). -/
  power : Byte
  /-- The position `i` of `RSENC` (R20). -/
  pos : Nat
  /-- The tap `j` of `RSENC` (R20). -/
  tap : Nat
  /-- The current leading coefficient `c` of `RSENC` (R20). -/
  lead : Byte
  /-- The group position `p` of the packers (R20). -/
  group : Nat
  /-- The pad phase of `ASSEMBLE` (R20). -/
  padPhase : PadPhase
  deriving DecidableEq, Repr

/-- Discarded working state (R21): DESIGN CHOICE, unsafe, notes/assumptions/2.md. The spec leaves the values between
operations unspecified and lets no operation read them. -/
def Work.discarded : Work :=
  { bs := [], cwbuf := [], g := ⟨0#8, []⟩, w := [], prod := ⟨0#8, []⟩, mulI := 0, mulJ := 0, factor := 0, power := 0#8
    pos := 0, tap := 0, lead := 0#8, group := 0, padPhase := .pad0Next }

/-- The block and its host. -/
structure State where
  /-- What the host will still do, in order: the MODEL's own (R12, `95_test_vectors.md` §3;
  notes/assumptions/1.md). -/
  host : List HostAction
  /-- Whether the reset line is asserted (R160). -/
  inReset : Bool
  /-- The request in flight, if any (R10, R23). -/
  request : Option Request
  /-- The response the host may take, if any (R11, R23). How long it is held is the model's choice, since taking it is
  left to the platform (R38): DESIGN CHOICE, unsafe, notes/assumptions/12.md. -/
  response : Option Response
  /-- The working state (R16 to R20). -/
  work : Work
  deriving DecidableEq, Repr

/-- The block raises no machine fault: "there is no illegal-instruction, address, alignment, access, arithmetic,
overflow, divide or timeout exception" (R142), and every error is a response (R143). The type has no constructor. -/
inductive Fault where
  deriving DecidableEq, Repr

/-- Requests to which the spec gives no response. -/
inductive Refusal where
  /-- An operation the model gives no meaning yet, raised by `exec`; safe. No arm raises it. -/
  | notModelled (mnemonic : String)
  /-- A reserved command word, raised by `step`: "no response is defined" (R56, R157); safe. -/
  | reservedCommand (why : Reject)
  /-- A request issued while reset is asserted, raised by `step`: it "is not accepted and has no meaning" (R160,
  U14); safe. -/
  | requestDuringReset
  /-- A request whose sequence operand is not the one its operation takes, raised by the meanings: such an operand
  "does not exist in that operation's request" (R10); safe (notes/assumptions/3.md). -/
  | wrongOperand (takes : OperandKind)
  deriving DecidableEq, Repr

/-- Right after reset (R23, R160): idle, no operation in flight, no response pending. The working state and the host's
script are DESIGN CHOICE values (notes/assumptions/1.md and 2.md). -/
def State.reset : State :=
  { host := [], inReset := false, request := none, response := none, work := Work.discarded }

end Sys2Proof.Machine
end

