-- ==== Sys2Proof/Machine/Flags.lean ====
section
/-! DEFINITION. The status of a response. The block "has no condition codes and no flags register. The only status is
the `STATUS` field of each response" (`10_state.md` rule R14). -/

namespace Sys2Proof.Machine

/-- The status a cause is reported with (R140 to R142). -/
def Cause.status : Cause → Status
  | .emptyData => .invalidInput
  | .zeroEcCount => .invalidInput
  | .fieldSizeOverflow _ => .invalidInput
  | .misfitCharacter _ => .invalidInput
  | .countTooLarge _ => .capacityExceeded
  | .overCapacity _ _ => .capacityExceeded
  | .kanjiMode => .unsupported

/-- The `STATUS` field (R11, R14). -/
def Response.status : Response → Status
  | .done _ => .ok
  | .raised c => c.status

/-- The result field, present "when and only when `STATUS = OK`" (R11). -/
def Response.result : Response → Option Result
  | .done r => some r
  | .raised _ => none

/-- The two-bit code of a status (R53). -/
def Status.code : Status → BitVec 2
  | .ok => 0#2
  | .invalidInput => 1#2
  | .capacityExceeded => 2#2
  | .unsupported => 3#2

/-- The response that ends an operation: its result, or the first violated precondition (R143, R146). -/
def responseOf : Except Cause Result → Response
  | .ok r => .done r
  | .error c => .raised c

end Sys2Proof.Machine
end

