-- ==== Sys2Proof/Machine/Operands.lean ====
section
/-! DEFINITION. The sequence operands of the request in flight, and what the block reads from a text: digits, the
alphanumeric alphabet, the Kanji class, the bytes (`30_encoding.md` rules R58, R59, R61, R62). -/

namespace Sys2Proof.Machine

/-- The sequence operand of the request in flight (R10). -/
def State.operand (s : State) : SeqOperand :=
  match s.request with
  | some r => r.operand
  | none => .none

/-- An ASCII digit, U+0030 to U+0039 (R59). -/
def isDigit (c : CodePoint) : Bool :=
  0x30 ≤ c.toNat && c.toNat ≤ 0x39

/-- `digit_value(c) = c - 0x30` (R59), meant for digits. -/
def digitValue (c : CodePoint) : Nat :=
  c.toNat - 0x30

/-- The 45 characters in the order the source lists them (R58, D11). -/
def alnumAlphabet : Text :=
  ['0', '1', '2', '3', '4', '5', '6', '7', '8', '9'] ++
  ['A', 'B', 'C', 'D', 'E', 'F', 'G', 'H', 'I', 'J', 'K', 'L', 'M'] ++
  ['N', 'O', 'P', 'Q', 'R', 'S', 'T', 'U', 'V', 'W', 'X', 'Y', 'Z'] ++
  [' ', '$', '%', '*', '+', '-', '.', '/', ':']

/-- `ALNUM_INDEX(c)`, the position in the alphabet counted from 0; "a code point not in the table has no index"
(R58). -/
def alnumIndex (c : CodePoint) : Option Nat :=
  alnumAlphabet.idxOf? c

/-- "Has an index in the table" (R100). -/
def isAlnum (c : CodePoint) : Bool :=
  (alnumIndex c).isSome

/-- The index as a number, meant for characters of the alphabet: the packers run only after rule R117's check. -/
def alnumValue (c : CodePoint) : Nat :=
  (alnumIndex c).getD 0

/-- The five characters of the source's Kanji example (R62, K12). -/
def kanjiExample : Text :=
  [Char.ofNat 0x3053, Char.ofNat 0x3093, Char.ofNat 0x306B, Char.ofNat 0x3061, Char.ofNat 0x306F]

/-- `IS_KANJI_CLASS(c)`: the open predicate of `Config` where the spec leaves it open. Rule R62 asks of any value of it
false below U+0080 and true of the example's characters; a text of `é` (U+00E9) alone is Byte (R102, V4), so it is
false there (notes/assumptions/5.md). -/
def isKanjiClass (c : CodePoint) : Bool :=
  if c.toNat < 0x80 ∨ c.toNat = 0xE9 then false
  else if kanjiExample.contains c then true
  else Config.kanjiElsewhere c

/-- The UTF-8 bytes of one code point (R61, D6), its bits most significant first. -/
def charBytes (c : CodePoint) : ByteSeq :=
  let v := c.toNat
  if v < 0x80 then [BitVec.ofNat 8 v]
  else if v < 0x800 then [BitVec.ofNat 8 (0xC0 + v / 2 ^ 6), BitVec.ofNat 8 (0x80 + v % 2 ^ 6)]
  else if v < 0x10000 then
    [BitVec.ofNat 8 (0xE0 + v / 2 ^ 12), BitVec.ofNat 8 (0x80 + v / 2 ^ 6 % 2 ^ 6), BitVec.ofNat 8 (0x80 + v % 2 ^ 6)]
  else
    [BitVec.ofNat 8 (0xF0 + v / 2 ^ 18), BitVec.ofNat 8 (0x80 + v / 2 ^ 12 % 2 ^ 6),
     BitVec.ofNat 8 (0x80 + v / 2 ^ 6 % 2 ^ 6), BitVec.ofNat 8 (0x80 + v % 2 ^ 6)]

/-- `TEXT_BYTES`, "one per byte of the encoded text" (R61; notes/assumptions/6.md). -/
def textBytes (t : Text) : ByteSeq :=
  t.flatMap charBytes

end Sys2Proof.Machine
end

