-- ==== Sys2Proof/Machine/Ops.lean ====
section
/-! DEFINITION. The named operations every unit shares: appending a field to a bit stream and viewing a stream as
codewords (`30_encoding.md` rule R54, `20_memory.md` rule R31), accepting a request, ending an operation with its
response (which is also how an error is taken, `60_exceptions.md` rule R143), and reset (R160). -/

namespace Sys2Proof.Machine

/-- `append_bits(bs, v, w)`: bit `w-1` of `v` first, bit 0 last (R54). -/
def appendBits (bs : BitSeq) (v w : Nat) : BitSeq :=
  bs ++ (List.range w).map (fun b => v.testBit (w - 1 - b))

/-- Codeword `i` of a stream: the sum over `b` in 0..7 of `BS[8i+b] * 2^(7-b)` (R31, D12). -/
def codewordAt (bs : BitSeq) (i : Nat) : Byte :=
  BitVec.ofNat 8 ((List.range 8).map (fun b => (bs.getD (8 * i + b) false).toNat * 2 ^ (7 - b))).sum

/-- The codeword view of a byte-aligned stream (R17). -/
def codewords (bs : BitSeq) : ByteSeq :=
  (List.range (bs.length / 8)).map (codewordAt bs)

/-- The host issues a request and the block accepts it (R12). The host has taken the response before it whole (R41,
R168 (c)); that it is held until now and dropped here is the model's choice: DESIGN CHOICE, unsafe,
notes/assumptions/12.md. -/
def State.accept (s : State) (r : Request) (rest : List HostAction) : State :=
  { s with host := rest, request := some r, response := none }

/-- The end of an operation (R11, R36, R143): the whole result, or on a violated precondition the error and no
result; the request is answered and all working state is discarded (R21). Nothing else changes: no mode, no mask, no
handler (R143, R147). -/
def State.respond (s : State) (outcome : Except Cause Result) : State :=
  { s with request := none, response := some (responseOf outcome), work := Work.discarded }

/-- Reset is asserted (R160): the block goes idle, an operation in flight is abandoned and produces no response. -/
def State.enterReset (s : State) (rest : List HostAction) : State :=
  { s with host := rest, inReset := true, request := none, response := none, work := Work.discarded }

/-- Reset is released (R160): the block "is ready for its first request" (R23). -/
def State.leaveReset (s : State) (rest : List HostAction) : State :=
  { s with host := rest, inReset := false }

end Sys2Proof.Machine
end

