-- ==== Sys2Proof/Machine/Assemble.lean ====
section
/-! DEFINITION. The bit stream assembler (`45_bitstream_assemble.md` rules R125 to R129) and the meaning of
`ASSEMBLE`. -/

namespace Sys2Proof.Machine

/-- Steps 1 to 3 of `assemble` (R125): concatenate the three parts, which are not looked into; four terminator bits,
always (R126); zeros to the next byte boundary (R127). -/
def Work.streamSegment (g : Segment) (wk : Work) : Work :=
  let joined := { wk with bs := g.mi ++ g.cci ++ g.data }
  let ended := { joined with bs := appendBits joined.bs 0 4 }
  { ended with bs := ended.bs ++ List.replicate ((8 - ended.bs.length % 8) % 8) false }

/-- One pass of the pad sequencer (R129): the byte the phase names, then the other phase. -/
def Work.padOne (wk : Work) : Work :=
  match wk.padPhase with
  | .pad0Next => { wk with cwbuf := wk.cwbuf ++ [pad0], padPhase := .pad1Next }
  | .pad1Next => { wk with cwbuf := wk.cwbuf ++ [pad1], padPhase := .pad0Next }

/-- `assemble(seg, level)` on the working state (R125): the capacity check on the bytes so far (R128), then the
codeword view and `cap - nb` pad bytes, the phase starting at `PAD0` (R129). -/
def Work.assemble (g : Segment) (level : ECLevel) (wk : Work) : Except Cause Work :=
  let st := wk.streamSegment g
  let nb := st.bs.length / 8
  if nb > capacity level then .error (.overCapacity nb (capacity level))
  else .ok (Work.padOne^[capacity level - nb] { st with cwbuf := codewords st.bs, padPhase := .pad0Next })

/-- `ASSEMBLE` on the working state. -/
def assembleResult (g : Segment) (level : ECLevel) (wk : Work) : Except Cause Result :=
  match wk.assemble g level with
  | .error c => .error c
  | .ok done => .ok (.codewords done.cwbuf)

/-- `ASSEMBLE seg, level -> cw` (R125). -/
def execAssemble (level : ECLevel) (s : State) : Host.Outcome State Fault Refusal :=
  match s.operand with
  | .seg g => .next (s.respond (assembleResult g level s.work))
  | _ => .refused (.wrongOperand .seg)

end Sys2Proof.Machine
end

