-- ==== Sys2Proof/Machine/Classify.lean ====
section
/-! DEFINITION. The mode classifier (`43_mode_classify.md`) and the meaning of `CLASSIFY`. It looks at code points,
not bytes (R103). -/

namespace Sys2Proof.Machine

/-- `classify(text)`, the tests in their precedence order; the empty text is Numeric (R100, R101). -/
def classify (t : Text) : Mode :=
  if t.all isDigit then .numeric
  else if t.all isAlnum then .alphanumeric
  else if t.any isKanjiClass then .kanji
  else .byte

/-- `CLASSIFY text -> mode` (R100): total, `STATUS` always `OK`. -/
def execClassify (s : State) : Host.Outcome State Fault Refusal :=
  match s.operand with
  | .text t => .next (s.respond (.ok (.mode (classify t))))
  | _ => .refused (.wrongOperand .text)

end Sys2Proof.Machine
end

