-- ==== Sys2Proof/Machine/Field.lean ====
section
/-! DEFINITION. Galois field arithmetic (`40_gf_arith.md`): `gf_add`, `gf_mul`, `gf_exp`, and the meanings of `GFADD`
and `GFMUL`. "The block has one `gf_mul`, with one constant" (R74). -/

namespace Sys2Proof.Machine

/-- `gf_add(a, b)`: exclusive or, bit by bit (R70). -/
def gfAdd (a b : Byte) : Byte :=
  a ^^^ b

/-- One shift of `x` in 9 bits, then the reduction by the whole 9-bit constant when bit 8 is set (R71). -/
def shiftReduce (x : Byte) : Byte :=
  let x9 : BitVec 9 := x.setWidth 9 <<< 1
  ((if x9.getLsbD 8 then x9 ^^^ poly else x9).setWidth 8)

/-- One pass of the loop of `gf_mul` over `(acc, x, y)` (R71). -/
def mulPass (r : Byte × Byte × Byte) : Byte × Byte × Byte :=
  (if r.2.2.getLsbD 0 then r.1 ^^^ r.2.1 else r.1, shiftReduce r.2.1, r.2.2 >>> 1)

/-- `gf_mul(a, b)`: carry-less shift-and-add with reduction, eight passes (R71). -/
def gfMul (a b : Byte) : Byte :=
  (mulPass^[8] (0#8, a, b)).1

/-- One multiplication of the running power by `ALPHA` (R73). -/
def Work.stepPower (wk : Work) : Work :=
  { wk with power := gfMul wk.power alpha }

/-- `gf_exp(i)` in the running power register: from 1, `i` multiplications (R73). -/
def Work.runPower (i : Nat) (wk : Work) : Work :=
  Work.stepPower^[i] { wk with power := 1#8 }

/-- `GFADD a, b -> r` (R70): total, `STATUS` always `OK`. -/
def execGfadd (a b : Byte) (s : State) : Host.Outcome State Fault Refusal :=
  match s.operand with
  | .none => .next (s.respond (.ok (.byte (gfAdd a b))))
  | _ => .refused (.wrongOperand .none)

/-- `GFMUL a, b -> r` (R71): total, `STATUS` always `OK`. -/
def execGfmul (a b : Byte) (s : State) : Host.Outcome State Fault Refusal :=
  match s.operand with
  | .none => .next (s.respond (.ok (.byte (gfMul a b))))
  | _ => .refused (.wrongOperand .none)

end Sys2Proof.Machine
end

