-- ==== Sys2Proof/Machine/GenPoly.lean ====
section
/-! DEFINITION. The generator polynomial builder (`41_gen_poly.md`): reading and writing coefficients, `poly_mul`,
`build_generator` over the working registers, and the meaning of `GENPOLY`. Both loops of `poly_mul` reach the last
index (R80, R163). -/

namespace Sys2Proof

/-- The coefficients of a polynomial, index 0 that of x^0 (R24). -/
def Poly.coeffs (p : Poly) : List Byte :=
  p.constTerm :: p.higher

/-- How many coefficients a polynomial has, `len(p)`. -/
def Poly.size (p : Poly) : Nat :=
  p.higher.length + 1

/-- `p[n]`, the coefficient of x^n. -/
def Poly.coeff (p : Poly) (n : Nat) : Byte :=
  p.coeffs.getD n 0#8

/-- `p[n] <- c`. -/
def Poly.setCoeff (p : Poly) (n : Nat) (c : Byte) : Poly :=
  match n with
  | 0 => { p with constTerm := c }
  | m + 1 => { p with higher := p.higher.set m c }

/-- `zeros(n + 1)` as a polynomial. -/
def Poly.zeros (n : Nat) : Poly :=
  { constTerm := 0#8, higher := List.replicate n 0#8 }

end Sys2Proof

namespace Sys2Proof.Machine

/-- The body of the inner loop of `poly_mul` (R80): `r[i+j] <- gf_add(r[i+j], gf_mul(p[i], q[j]))`, then the next
`j`. -/
def Work.mulTerm (p q : Poly) (wk : Work) : Work :=
  { wk with
    prod := wk.prod.setCoeff (wk.mulI + wk.mulJ)
      (gfAdd (wk.prod.coeff (wk.mulI + wk.mulJ)) (gfMul (p.coeff wk.mulI) (q.coeff wk.mulJ)))
    mulJ := wk.mulJ + 1 }

/-- The body of the outer loop of `poly_mul` (R80): `j` over every index of `q`, then the next `i`. -/
def Work.mulRow (p q : Poly) (wk : Work) : Work :=
  let row := (Work.mulTerm p q)^[q.size] { wk with mulJ := 0 }
  { row with mulI := row.mulI + 1 }

/-- `poly_mul(p, q)` into the product register, which starts as `zeros(len(p) + len(q) - 1)` (R80). -/
def Work.polyMul (p q : Poly) (wk : Work) : Work :=
  (Work.mulRow p q)^[p.size] { wk with prod := Poly.zeros (p.higher.length + q.higher.length), mulI := 0 }

/-- One factor of `build_generator` (R81): `g <- poly_mul(g, [gf_exp(i), 1])`, then the next `i`. -/
def Work.nextFactor (wk : Work) : Work :=
  let pw := wk.runPower wk.factor
  let pr := pw.polyMul pw.g ⟨pw.power, [1#8]⟩
  { pr with g := pr.prod, factor := pr.factor + 1 }

/-- `build_generator(k)` in the generator register, from `[1]` (R81). -/
def Work.buildGenerator (k : Nat) (wk : Work) : Work :=
  Work.nextFactor^[k] { wk with g := ⟨1#8, []⟩, factor := 0 }

/-- `GENPOLY` on the working state: `K = 0` raises `InvalidInput` (R81, D16). -/
def genpolyResult (k : Nat) (wk : Work) : Except Cause Result :=
  if k = 0 then .error .zeroEcCount
  else .ok (.generator (wk.buildGenerator k).g)

/-- `GENPOLY k -> g` (R81). -/
def execGenpoly (k : Byte) (s : State) : Host.Outcome State Fault Refusal :=
  match s.operand with
  | .none => .next (s.respond (genpolyResult k.toNat s.work))
  | _ => .refused (.wrongOperand .none)

end Sys2Proof.Machine
end

