-- ==== Sys2Proof/Machine/RsEncode.lean ====
section
/-! DEFINITION. The Reed-Solomon encoder (`42_rs_encode.md`): the preconditions, polynomial long division over the
working buffer, and the meaning of `RSENC`. -/

namespace Sys2Proof.Machine

/-- The preconditions of `RSENC` on the length of the data and the count, in the order written (R91). -/
def checkRs (n k : Nat) : Except Cause Unit :=
  if n = 0 then .error .emptyData
  else if k = 0 then .error .zeroEcCount
  else if n + k > maxRsSymbols then .error (.fieldSizeOverflow (n + k))
  else .ok ()

/-- One tap of the divider (R90): `W[i+j] <- gf_add(W[i+j], gf_mul(G[k-j], c))`, then the next `j`. -/
def Work.divTap (k : Nat) (wk : Work) : Work :=
  { wk with
    w := wk.w.set (wk.pos + wk.tap)
      (gfAdd (wk.w.getD (wk.pos + wk.tap) 0#8) (gfMul (wk.g.coeff (k - wk.tap)) wk.lead))
    tap := wk.tap + 1 }

/-- The division step at one data position (R90): take the leading coefficient and, if it is not zero, run all
`k+1` taps, `j = k` included (R163); then the next position. -/
def Work.divPosition (k : Nat) (wk : Work) : Work :=
  let ld := { wk with lead := wk.w.getD wk.pos 0#8, tap := 0 }
  let dv := if ld.lead ≠ 0#8 then (Work.divTap k)^[k + 1] ld else ld
  { dv with pos := dv.pos + 1 }

/-- `rs_encode(data, k)` on the working state (R90): build the generator, lay the data before `k` zeros, divide at
each data position in order. -/
def Work.rsDivide (data : ByteSeq) (k : Nat) (wk : Work) : Work :=
  (Work.divPosition k)^[data.length]
    { wk.buildGenerator k with w := data ++ List.replicate k 0#8, pos := 0 }

/-- "The original data, then the remainder": `data ++ W[n..n+k]` (R90). -/
def rsEncode (data : ByteSeq) (k : Nat) (wk : Work) : ByteSeq :=
  data ++ ((wk.rsDivide data k).w.drop data.length).take k

/-- `RSENC` on the working state: the checks of R91, then R90. -/
def rsencResult (data : ByteSeq) (k : Nat) (wk : Work) : Except Cause Result :=
  match checkRs data.length k with
  | .error c => .error c
  | .ok _ => .ok (.codewords (rsEncode data k wk))

/-- `RSENC data, k -> cw` (R90). -/
def execRsenc (k : Byte) (s : State) : Host.Outcome State Fault Refusal :=
  match s.operand with
  | .data d => .next (s.respond (rsencResult d k.toNat s.work))
  | _ => .refused (.wrongOperand .data)

end Sys2Proof.Machine
end

