-- ==== Sys2Proof/Machine/SegmentEncode.lean ====
section
/-! DEFINITION. The data segment encoder (`44_segment_encode.md`): the count and its check, the three packers over the
working bit stream, and the meaning of `SEGENC`. -/

namespace Sys2Proof.Machine

/-- `count(text, mode)`: bytes in Byte mode, characters otherwise (R112, D7). -/
def charCount (t : Text) : Mode → Nat
  | .numeric => t.length
  | .alphanumeric => t.length
  | .byte => (textBytes t).length
  | .kanji => t.length

/-- The value of one character of a digit group, by position (R59). -/
def digitAt (t : Text) (p : Nat) : Nat :=
  digitValue (t.getD p '0')

/-- The alphabet index of the character at a position (R58). -/
def alnumAt (t : Text) (p : Nat) : Nat :=
  alnumValue (t.getD p '0')

/-- One group of three digits: its 10-bit value, then the next group (R113). -/
def Work.packTriplet (t : Text) (wk : Work) : Work :=
  { wk with
    bs := appendBits wk.bs (100 * digitAt t wk.group + 10 * digitAt t (wk.group + 1) + digitAt t (wk.group + 2)) 10
    group := wk.group + 3 }

/-- `pack_numeric` (R113): `while n - p >= 3` runs `n div 3` times, then the short last group, two digits in 7 bits
or one in 4. -/
def Work.packNumeric (t : Text) (wk : Work) : Work :=
  let tr := (Work.packTriplet t)^[t.length / 3] { wk with bs := [], group := 0 }
  if t.length - tr.group = 2 then
    { tr with bs := appendBits tr.bs (10 * digitAt t tr.group + digitAt t (tr.group + 1)) 7 }
  else if t.length - tr.group = 1 then { tr with bs := appendBits tr.bs (digitAt t tr.group) 4 }
  else tr

/-- One group of two characters: its 11-bit value, then the next group (R114). -/
def Work.packPair (t : Text) (wk : Work) : Work :=
  { wk with
    bs := appendBits wk.bs (alnumRadix * alnumAt t wk.group + alnumAt t (wk.group + 1)) 11
    group := wk.group + 2 }

/-- `pack_alnum` (R114): `while n - p >= 2` runs `n div 2` times, then a single last character in 6 bits. -/
def Work.packAlnum (t : Text) (wk : Work) : Work :=
  let pr := (Work.packPair t)^[t.length / 2] { wk with bs := [], group := 0 }
  if t.length - pr.group = 1 then { pr with bs := appendBits pr.bs (alnumAt t pr.group) 6 }
  else pr

/-- One byte in its own 8-bit field, then the next (R115). -/
def Work.packOctet (d : ByteSeq) (wk : Work) : Work :=
  { wk with
    bs := appendBits wk.bs (d.getD wk.group 0#8).toNat 8
    group := wk.group + 1 }

/-- `pack_bytes` (R115). -/
def Work.packBytes (d : ByteSeq) (wk : Work) : Work :=
  (Work.packOctet d)^[d.length] { wk with bs := [], group := 0 }

/-- The check "over the whole text" before a packer runs: the position of the first character outside the mode's
alphabet is an error (R117). -/
def checkFits (fits : CodePoint → Bool) (t : Text) : Except Cause Unit :=
  match t.findIdx? (fun c => !fits c) with
  | some p => .error (.misfitCharacter p)
  | none => .ok ()

/-- The data stage of `encode_segment`, the dispatch on the mode (R110): `Unsupported` for Kanji (R116), or
`InvalidInput` for a misfit character (R117), or the packed bits in `BS`. -/
def Work.packData (t : Text) (m : Mode) (wk : Work) : Except Cause Work :=
  match m with
  | .numeric =>
    match checkFits isDigit t with
    | .error c => .error c
    | .ok _ => .ok (wk.packNumeric t)
  | .alphanumeric =>
    match checkFits isAlnum t with
    | .error c => .error c
    | .ok _ => .ok (wk.packAlnum t)
  | .byte => .ok (wk.packBytes (textBytes t))
  | .kanji => .error .kanjiMode

/-- `encode_segment(text, mode, level)` (R110): the count check first (R112, R118), then the data stage. `level` is
"carried and not used" (R111). -/
def encodeSegment (t : Text) (m : Mode) (_level : ECLevel) (wk : Work) : Except Cause Segment :=
  let n := charCount t m
  if 2 ^ countBits m ≤ n then .error (.countTooLarge n)
  else
    match wk.packData t m with
    | .error c => .error c
    | .ok packed =>
      .ok { mode := m
            mi := appendBits [] (modeInd m).toNat modeIndBits
            cci := appendBits [] n (countBits m)
            data := packed.bs }

/-- `SEGENC` on the working state. -/
def segencResult (t : Text) (m : Mode) (level : ECLevel) (wk : Work) : Except Cause Result :=
  match encodeSegment t m level wk with
  | .error c => .error c
  | .ok g => .ok (.segment g)

/-- `SEGENC text, mode, level -> seg` (R110). -/
def execSegenc (m : Mode) (level : ECLevel) (s : State) : Host.Outcome State Fault Refusal :=
  match s.operand with
  | .text t => .next (s.respond (segencResult t m level s.work))
  | _ => .refused (.wrongOperand .text)

end Sys2Proof.Machine
end

