-- ==== Sys2Proof/Machine/Pipeline.lean ====
section
/-! DEFINITION. The whole pipeline (`45_bitstream_assemble.md` rules R130 to R132) and the meaning of `ENCSYM`. -/

namespace Sys2Proof.Machine

/-- `encode_symbol_data(text, level)` with `k` error-correction codewords (R130): classify, segment-encode, assemble,
Reed-Solomon-encode, each stage on the whole result of the one before; the first error ends the operation with that
stage's cause (R132, R146). -/
def encodeSymbolData (k : Nat) (t : Text) (level : ECLevel) (wk : Work) : Except Cause ByteSeq :=
  match encodeSegment t (classify t) level wk with
  | .error c => .error c
  | .ok seg =>
    match wk.assemble seg level with
    | .error c => .error c
    | .ok asm =>
      match checkRs asm.cwbuf.length k with
      | .error c => .error c
      | .ok _ => .ok (rsEncode asm.cwbuf k asm)

/-- `ENCSYM` on the working state, `k = NEC(level)` (R130, R131). -/
def encsymResult (t : Text) (level : ECLevel) (wk : Work) : Except Cause Result :=
  match encodeSymbolData (nec level) t level wk with
  | .error c => .error c
  | .ok cw => .ok (.codewords cw)

/-- `ENCSYM text, level -> cw` (R130). -/
def execEncsym (level : ECLevel) (s : State) : Host.Outcome State Fault Refusal :=
  match s.operand with
  | .text t => .next (s.respond (encsymResult t level s.work))
  | _ => .refused (.wrongOperand .text)

end Sys2Proof.Machine
end

