-- ==== Sys2Proof/Machine/Dispatch.lean ====
section
/-! DEFINITION. One arm per operation (`30_encoding.md` rule R55). -/

namespace Sys2Proof.Machine

def exec (i : Instr) (s : State) : Host.Outcome State Fault Refusal :=
  match i with
  | .gfadd a b => Sys2Proof.Machine.execGfadd a b s
  | .gfmul a b => Sys2Proof.Machine.execGfmul a b s
  | .genpoly k => Sys2Proof.Machine.execGenpoly k s
  | .rsenc k => Sys2Proof.Machine.execRsenc k s
  | .classify => Sys2Proof.Machine.execClassify s
  | .segenc mode level => Sys2Proof.Machine.execSegenc mode level s
  | .assemble level => Sys2Proof.Machine.execAssemble level s
  | .encsym level => Sys2Proof.Machine.execEncsym level s

end Sys2Proof.Machine
end

