-- ==== Sys2Proof/WellFormed.lean ====
section
/-! DEFINITION. Which requests are well formed: "an operand not listed for an operation does not exist in that
operation's request" (`10_state.md` rule R10). The operands inside the command word need no check: `Mode` and
`ECLevel` are closed enumerations and every byte is a legal `A`, `B` or `K`, so every `Instr` is well formed. -/

namespace Sys2Proof

/-- The sequence operand an operation takes (R10, R50). -/
def Instr.takes : Instr → OperandKind
  | .gfadd _ _ => .none
  | .gfmul _ _ => .none
  | .genpoly _ => .none
  | .rsenc _ => .data
  | .classify => .text
  | .segenc _ _ => .text
  | .assemble _ => .seg
  | .encsym _ => .text

/-- The kind of a sequence operand. -/
def SeqOperand.kind : SeqOperand → OperandKind
  | .none => .none
  | .data _ => .data
  | .text _ => .text
  | .seg _ => .seg

/-- The empty sequence operand of each kind; every length "including 0" is legal (R24). -/
def SeqOperand.empty : OperandKind → SeqOperand
  | .none => .none
  | .data => .data []
  | .text => .text []
  | .seg => .seg ⟨.numeric, [], [], []⟩

/-- A request is well formed when its sequence operand is the one its operation takes (R10, R50). -/
def Instr.wellFormedWith (i : Instr) (o : SeqOperand) : Bool :=
  o.kind == i.takes

end Sys2Proof
end

