-- ==== Sys2Proof/Machine/Serve.lean ====
section
/-! DEFINITION. How the block takes one issued request (`20_memory.md` rule R40, `60_exceptions.md` rule R157). -/

namespace Sys2Proof.Machine

/-- The block takes one issued request: refused while reset is asserted (R160) or when its command word is reserved
(R56, R157), else one operation. -/
def serve (r : Request) (rest : List HostAction) (s : State) : Host.Outcome State Fault Refusal :=
  if s.inReset then .refused .requestDuringReset
  else
    match decode r.cmd with
    | .error why => .refused (.reservedCommand why)
    | .ok i => exec i (s.accept r rest)

/-- A request in progress when reset is asserted (R160): the block took it as `serve` does, and it "is abandoned and
produces no response". -/
def serveAbandoned (r : Request) (rest : List HostAction) (s : State) : Host.Outcome State Fault Refusal :=
  if s.inReset then .refused .requestDuringReset
  else
    match decode r.cmd with
    | .error why => .refused (.reservedCommand why)
    | .ok i =>
      if i.wellFormedWith r.operand then .next ((s.accept r rest).enterReset rest)
      else .refused (.wrongOperand i.takes)

end Sys2Proof.Machine
end

