-- ==== Sys2Proof/Machine/Step.lean ====
section
/-! DEFINITION. One step: the host's next action (`10_state.md` rule R12, `70_reset_and_hazards.md` rule R160). An
operation is one step, from request to response (`20_memory.md` rule R36). -/

namespace Sys2Proof.Machine

/-- The host's next action; with none left the block stays as it is, idle between operations. -/
def step (s : State) : Host.Outcome State Fault Refusal :=
  match s.host with
  | [] => .next s
  | .issue r :: rest => serve r rest s
  | .issueThenReset r :: rest => serveAbandoned r rest s
  | .assertReset :: rest => .next (s.enterReset rest)
  | .releaseReset :: rest => .next (s.leaveReset rest)

/-- The state whose very next step serves the request with command word `w`: the host issues it first, with reset
released and the empty sequence operand of the kind its operation takes (notes/assumptions/1.md). -/
def State.withFetchWord (s : State) (nbits w : Nat) : State :=
  let operand := match decodeTableWord nbits w with
    | some i => SeqOperand.empty i.takes
    | none => .none
  { s with
    host := .issue { cmd := BitVec.ofNat 32 (w % 2 ^ nbits), operand := operand } :: s.host
    inReset := false }

end Sys2Proof.Machine
end

