-- ==== Sys2Proof/Safety.lean ====
section
/-! DEFINITION. The terms in which claims speak of the machine: the answer of an operation, the mathematics of the
spec's rules written without working registers (field powers, polynomial products, long division, bit fields), the
tables of rules R14, R56 and R133, and what counts as a safe state between steps. -/

namespace Sys2Proof.Safety

open Sys2Proof.Machine

/-- The response an operation ended with, if it ended with a next state (R11). -/
def answer : Host.Outcome State Fault Refusal → Option Response
  | .next s => s.response
  | .fault _ => none
  | .refused _ => none

/-- A state whose request in flight carries the sequence operand `o`. -/
def asking (s : State) (o : SeqOperand) : State :=
  { s with request := some { cmd := 0#32, operand := o } }

/-- `gf_exp(i)`, the power `α^i` of the generator element (R73). -/
def gfExp : Nat → Byte
  | 0 => 1#8
  | i + 1 => gfMul (gfExp i) alpha

/-- The first 256 values of `gf_exp`, as rule R73 prints them. -/
def expTable : ByteSeq :=
  [0x01, 0x02, 0x04, 0x08, 0x10, 0x20, 0x40, 0x80, 0x1D, 0x3A, 0x74, 0xE8, 0xCD, 0x87, 0x13, 0x26] ++
  [0x4C, 0x98, 0x2D, 0x5A, 0xB4, 0x75, 0xEA, 0xC9, 0x8F, 0x03, 0x06, 0x0C, 0x18, 0x30, 0x60, 0xC0] ++
  [0x9D, 0x27, 0x4E, 0x9C, 0x25, 0x4A, 0x94, 0x35, 0x6A, 0xD4, 0xB5, 0x77, 0xEE, 0xC1, 0x9F, 0x23] ++
  [0x46, 0x8C, 0x05, 0x0A, 0x14, 0x28, 0x50, 0xA0, 0x5D, 0xBA, 0x69, 0xD2, 0xB9, 0x6F, 0xDE, 0xA1] ++
  [0x5F, 0xBE, 0x61, 0xC2, 0x99, 0x2F, 0x5E, 0xBC, 0x65, 0xCA, 0x89, 0x0F, 0x1E, 0x3C, 0x78, 0xF0] ++
  [0xFD, 0xE7, 0xD3, 0xBB, 0x6B, 0xD6, 0xB1, 0x7F, 0xFE, 0xE1, 0xDF, 0xA3, 0x5B, 0xB6, 0x71, 0xE2] ++
  [0xD9, 0xAF, 0x43, 0x86, 0x11, 0x22, 0x44, 0x88, 0x0D, 0x1A, 0x34, 0x68, 0xD0, 0xBD, 0x67, 0xCE] ++
  [0x81, 0x1F, 0x3E, 0x7C, 0xF8, 0xED, 0xC7, 0x93, 0x3B, 0x76, 0xEC, 0xC5, 0x97, 0x33, 0x66, 0xCC] ++
  [0x85, 0x17, 0x2E, 0x5C, 0xB8, 0x6D, 0xDA, 0xA9, 0x4F, 0x9E, 0x21, 0x42, 0x84, 0x15, 0x2A, 0x54] ++
  [0xA8, 0x4D, 0x9A, 0x29, 0x52, 0xA4, 0x55, 0xAA, 0x49, 0x92, 0x39, 0x72, 0xE4, 0xD5, 0xB7, 0x73] ++
  [0xE6, 0xD1, 0xBF, 0x63, 0xC6, 0x91, 0x3F, 0x7E, 0xFC, 0xE5, 0xD7, 0xB3, 0x7B, 0xF6, 0xF1, 0xFF] ++
  [0xE3, 0xDB, 0xAB, 0x4B, 0x96, 0x31, 0x62, 0xC4, 0x95, 0x37, 0x6E, 0xDC, 0xA5, 0x57, 0xAE, 0x41] ++
  [0x82, 0x19, 0x32, 0x64, 0xC8, 0x8D, 0x07, 0x0E, 0x1C, 0x38, 0x70, 0xE0, 0xDD, 0xA7, 0x53, 0xA6] ++
  [0x51, 0xA2, 0x59, 0xB2, 0x79, 0xF2, 0xF9, 0xEF, 0xC3, 0x9B, 0x2B, 0x56, 0xAC, 0x45, 0x8A, 0x09] ++
  [0x12, 0x24, 0x48, 0x90, 0x3D, 0x7A, 0xF4, 0xF5, 0xF7, 0xF3, 0xFB, 0xEB, 0xCB, 0x8B, 0x0B, 0x16] ++
  [0x2C, 0x58, 0xB0, 0x7D, 0xFA, 0xE9, 0xCF, 0x83, 0x1B, 0x36, 0x6C, 0xD8, 0xAD, 0x47, 0x8E, 0x01]

/-- A byte stands for a polynomial over GF(2) of degree below 8, bit `i` the coefficient of x^i (R72). -/
def Represents (a : Byte) (p : Polynomial (ZMod 2)) : Prop :=
  ∀ i, p.coeff i = if a.getLsbD i then 1 else 0

/-- A list of coefficients, lowest degree first. -/
abbrev Coeffs := List Byte

/-- The coefficient of x^n of a product: the field sum of `p[i]*q[n-i]` (R80). -/
def productCoeff (p q : Coeffs) (n : Nat) : Byte :=
  ((List.range (n + 1)).map (fun i => gfMul (p.getD i 0#8) (q.getD (n - i) 0#8))).foldl gfAdd 0#8

/-- The product of two polynomials, of length `len(p)+len(q)-1` (R80). -/
def product (p q : Coeffs) : Coeffs :=
  (List.range (p.length + q.length - 1)).map (productCoeff p q)

/-- The generator polynomial: the product of the factors `x + α^i`, `i` from 0 to `k-1` (R81). -/
def generator : Nat → Coeffs
  | 0 => [1#8]
  | k + 1 => product (generator k) [gfExp k, 1#8]

/-- The value of a polynomial, lowest degree first, at a field element. -/
def evalAt (p : Coeffs) (x : Byte) : Byte :=
  p.foldr (fun c acc => gfAdd c (gfMul acc x)) 0#8

/-- The value of a codeword sequence, highest degree first, at a field element (R92 (b), program P2). -/
def evalCodewords (cw : ByteSeq) (x : Byte) : Byte :=
  cw.foldl (fun r c => gfAdd (gfMul r x) c) 0#8

/-- Field addition of `t` into the front of `b`. -/
def addFront : ByteSeq → ByteSeq → ByteSeq
  | b :: bs, t :: ts => gfAdd b t :: addFront bs ts
  | bs, _ => bs

/-- Long division with the positions already passed dropped (R90): `n` leading coefficients are taken in turn, and
one that is not zero adds the divisor's lower coefficients, scaled by it, to what follows. -/
def remainder (lower : ByteSeq) : Nat → ByteSeq → ByteSeq
  | 0, buf => buf
  | _ + 1, [] => []
  | n + 1, c :: rest =>
    remainder lower n (if c = 0#8 then rest else addFront rest (lower.map (fun g => gfMul g c)))

/-- The data and the remainder of its division by the generator (R90). -/
def systematic (data : ByteSeq) (k : Nat) : ByteSeq :=
  data ++ remainder (generator k).reverse.tail data.length (data ++ List.replicate k 0#8)

/-- The `w` bits of `v`, most significant first (R31, R54). -/
def fieldBits (v : Nat) : Nat → BitSeq
  | 0 => []
  | w + 1 => decide (v / 2 ^ w % 2 = 1) :: fieldBits v w

/-- The number a bit sequence spells, first bit most significant. -/
def valueOf (bs : BitSeq) : Nat :=
  bs.foldl (fun v b => 2 * v + b.toNat) 0

/-- The bits of a codeword sequence, each codeword's bit 7 first (R31). -/
def bitsOf (cw : ByteSeq) : BitSeq :=
  cw.flatMap (fun b => fieldBits b.toNat 8)

/-- U+0030 to U+0039 (R59). -/
abbrev IsDigit (c : CodePoint) : Prop :=
  0x30 ≤ c.toNat ∧ c.toNat ≤ 0x39

/-- The rows of the table of rule R58: digits, capital letters, and the nine others by code point. -/
abbrev IsAlnum (c : CodePoint) : Prop :=
  IsDigit c ∨ (0x41 ≤ c.toNat ∧ c.toNat ≤ 0x5A) ∨
    c.toNat ∈ [0x20, 0x24, 0x25, 0x2A, 0x2B, 0x2D, 0x2E, 0x2F, 0x3A]

/-- The index column of the table of rule R58. -/
def tableIndex (c : CodePoint) : Option Nat :=
  if 0x30 ≤ c.toNat ∧ c.toNat ≤ 0x39 then some (c.toNat - 0x30)
  else if 0x41 ≤ c.toNat ∧ c.toNat ≤ 0x5A then some (c.toNat - 0x41 + 10)
  else match c.toNat with
    | 0x20 => some 36
    | 0x24 => some 37
    | 0x25 => some 38
    | 0x2A => some 39
    | 0x2B => some 40
    | 0x2D => some 41
    | 0x2E => some 42
    | 0x2F => some 43
    | 0x3A => some 44
    | _ => none

/-- `digit_value(c) = c - 0x30` (R59). -/
def digitOf (c : CodePoint) : Nat :=
  c.toNat - 0x30

/-- The numeric groups, from the first character on (R113): three digits in 10 bits, two in 7, one in 4. -/
def numericBits : Text → BitSeq
  | a :: b :: c :: rest => fieldBits (100 * digitOf a + 10 * digitOf b + digitOf c) 10 ++ numericBits rest
  | [a, b] => fieldBits (10 * digitOf a + digitOf b) 7
  | [a] => fieldBits (digitOf a) 4
  | [] => []

/-- The index column as a number, meant for characters of the table (R58). -/
def tableValue (c : CodePoint) : Nat :=
  (tableIndex c).getD 0

/-- The alphanumeric groups (R114): two characters in 11 bits, one in 6. -/
def alnumBits : Text → BitSeq
  | a :: b :: rest => fieldBits (45 * tableValue a + tableValue b) 11 ++ alnumBits rest
  | [a] => fieldBits (tableValue a) 6
  | [] => []

/-- Reserved command words (R56 (a) to (d)), by the bits of the word: `OP` is `CMD[3:0]`, `MODE` `CMD[7:4]`, `LEVEL`
`CMD[9:8]`, `RSV` `CMD[15:10]`, `A` or `K` `CMD[23:16]`, `B` `CMD[31:24]` (R50). -/
def Reserved (w : Word) : Prop :=
  let op := w.toNat % 16
  let mode := w.toNat / 2 ^ 4 % 16
  let level := w.toNat / 2 ^ 8 % 4
  let rsv := w.toNat / 2 ^ 10 % 64
  let a := w.toNat / 2 ^ 16 % 256
  let b := w.toNat / 2 ^ 24
  8 ≤ op ∨ rsv ≠ 0 ∨
    (op ≠ 5 ∧ mode ≠ 0) ∨ (op ≤ 4 ∧ level ≠ 0) ∨ (4 ≤ op ∧ a ≠ 0) ∨ (2 ≤ op ∧ b ≠ 0) ∨
    (op = 5 ∧ mode ≠ 1 ∧ mode ≠ 2 ∧ mode ≠ 4 ∧ mode ≠ 8)

/-- The command word of an operation as a number, from the tables of rules R50 to R52 and R55. -/
def wordValue : Instr → Nat
  | .gfadd a b => b.toNat * 2 ^ 24 + a.toNat * 2 ^ 16 + 0
  | .gfmul a b => b.toNat * 2 ^ 24 + a.toNat * 2 ^ 16 + 1
  | .genpoly k => k.toNat * 2 ^ 16 + 2
  | .rsenc k => k.toNat * 2 ^ 16 + 3
  | .classify => 4
  | .segenc m l => levelNumber l * 2 ^ 8 + modeNumber m * 2 ^ 4 + 5
  | .assemble l => levelNumber l * 2 ^ 8 + 6
  | .encsym l => levelNumber l * 2 ^ 8 + 7
where
  /-- R52. -/
  levelNumber : ECLevel → Nat
    | .L => 0
    | .M => 1
    | .Q => 2
    | .H => 3
  /-- R51. -/
  modeNumber : Mode → Nat
    | .numeric => 1
    | .alphanumeric => 2
    | .byte => 4
    | .kanji => 8

/-- Which statuses an operation can produce (the table of R14). -/
def mayReport : Instr → List Status
  | .gfadd _ _ => [.ok]
  | .gfmul _ _ => [.ok]
  | .classify => [.ok]
  | .genpoly _ => [.ok, .invalidInput]
  | .rsenc _ => [.ok, .invalidInput]
  | .segenc _ _ => [.ok, .capacityExceeded, .invalidInput, .unsupported]
  | .assemble _ => [.ok, .capacityExceeded]
  | .encsym _ => [.ok, .capacityExceeded, .invalidInput, .unsupported]

/-- The longest input each mode can carry at each level (the table of R133): digits, characters, bytes. Kanji has no
packer (R116). -/
def longest : Mode → ECLevel → Nat
  | .numeric, .L => 186
  | .numeric, .M => 148
  | .numeric, .Q => 109
  | .numeric, .H => 81
  | .alphanumeric, .L => 113
  | .alphanumeric, .M => 90
  | .alphanumeric, .Q => 66
  | .alphanumeric, .H => 49
  | .byte, .L => 78
  | .byte, .M => 62
  | .byte, .Q => 46
  | .byte, .H => 34
  | .kanji, _ => 0

/-- The bit length of a segment (R128). -/
def segmentLength (g : Segment) : Nat :=
  g.mi.length + g.cci.length + g.data.length

/-- What every result holds, whatever the request (R11, R82, R91, R128, R130, R57). -/
def LegalResult : Result → Prop
  | .byte _ => True
  | .generator g => 2 ≤ g.size ∧ g.size ≤ 256 ∧ g.coeffs.getLast? = some 1#8
  | .codewords cw => 2 ≤ cw.length ∧ cw.length ≤ 255
  | .mode _ => True
  | .segment g =>
    g.mode ≠ .kanji ∧ g.mi = fieldBits (modeInd g.mode).toNat 4 ∧ g.cci.length = countBits g.mode ∧
      valueOf g.cci < 2 ^ countBits g.mode

/-- What the info of every error holds (R140, R141). -/
def LegalCause : Cause → Prop
  | .emptyData => True
  | .zeroEcCount => True
  | .fieldSizeOverflow total => 255 < total
  | .misfitCharacter position => position < 2 ^ 10
  | .countTooLarge count => 2 ^ 8 ≤ count
  | .overCapacity bytes cap => cap < bytes ∧ cap ∈ [80, 64, 48, 36]
  | .kanjiMode => True

/-- A legal response (R11). -/
def LegalResponse : Response → Prop
  | .done r => LegalResult r
  | .raised c => LegalCause c

/-- A state between two steps: no operation in flight (R36), nothing of an operation left behind (R21), no response
while reset is asserted (R160), and a response that is held is a legal one. -/
def Inv (s : State) : Prop :=
  s.request = none ∧ s.work = Work.discarded ∧ (s.inReset = true → s.response = none) ∧
    ∀ r, s.response = some r → LegalResponse r

end Sys2Proof.Safety
end

