-- ==== Sys2Proof/Certificates/Slice0/Obligations.lean ====
section
/-! DEFINITION. The statements for the provers. Each docstring names the rule of spec/ it formalises; `log <n>` is
notes/assumptions/<n>.md. -/

open Sys2Proof Sys2Proof.Machine Sys2Proof.Safety

/-! ### The command word -/

/-- R50 to R52, R55 (the encoding is the spec's decision D3, D4): decoding the command word of an operation gives the
operation back, every operand at every value. -/
def Obligations.DecodeOfEncodeIsTheInstruction : Prop :=
  ∀ i : Instr, decode (encode i) = .ok i

/-- R50, R55, R56 (decision D3): each word that decodes has one meaning, and it is the word of that meaning. -/
def Obligations.EncodeOfDecodeIsTheWord : Prop :=
  ∀ (w : Word) (i : Instr), decode w = .ok i → encode i = w

/-- R50 to R52, R55 (decisions D3, D4): where each field of the command word stands, as a number. -/
def Obligations.CommandWordLayout : Prop :=
  ∀ i : Instr, (encode i).toNat = wordValue i

/-- R50, R51, R52, R55 (decisions D3, D4): command words printed in programs P1 to P4 decode to the operations printed
beside them. -/
def Obligations.PrintedCommandWordsDecode : Prop :=
  decode 0x02010001#32 = .ok (.gfmul 0x01#8 0x02#8) ∧
  decode 0x1D1D0000#32 = .ok (.gfadd 0x1D#8 0x1D#8) ∧
  decode 0xCA530000#32 = .ok (.gfadd 0x53#8 0xCA#8) ∧
  decode 0x000A0002#32 = .ok (.genpoly 10#8) ∧
  decode 0x00140003#32 = .ok (.rsenc 20#8) ∧
  decode 0x00000004#32 = .ok .classify ∧
  decode 0x00000025#32 = .ok (.segenc .alphanumeric .L) ∧
  decode 0x00000085#32 = .ok (.segenc .kanji .L) ∧
  decode 0x00000006#32 = .ok (.assemble .L) ∧
  decode 0x00000007#32 = .ok (.encsym .L) ∧
  decode 0x00000009#32 = .error .reservedOp

/-- R56, R157 (decision D3): the machine refuses exactly the reserved words: a request with one gets no response, and
every other word decodes. -/
def Obligations.ReservedWordsAreRefused : Prop :=
  ∀ (s : State) (r : Request) (rest : List HostAction), s.host = .issue r :: rest → s.inReset = false →
    (Reserved r.cmd → ∃ why, step s = .refused (.reservedCommand why)) ∧
    (¬ Reserved r.cmd → ∃ i, decode r.cmd = .ok i ∧ step s = exec i (s.accept r rest))

/-- R51, R52, R53 (decision D4): the codes of `Mode`, `ECLevel` and `Status` are the printed ones, name one value each,
and every code that names one is read back as it. -/
def Obligations.InterfaceCodesAreOneToOne : Prop :=
  (∀ c m, modeOfCode c = some m ↔ modeInd m = c) ∧
  (∀ c l, levelOfCode c = l ↔ levelCode l = c) ∧
  (∀ a b : Status, a.code = b.code → a = b) ∧
  modeInd .numeric = 0b0001#4 ∧ modeInd .alphanumeric = 0b0010#4 ∧ modeInd .byte = 0b0100#4 ∧
  modeInd .kanji = 0b1000#4 ∧
  levelCode .L = 0b00#2 ∧ levelCode .M = 0b01#2 ∧ levelCode .Q = 0b10#2 ∧ levelCode .H = 0b11#2 ∧
  Status.ok.code = 0#2 ∧ Status.invalidInput.code = 1#2 ∧ Status.capacityExceeded.code = 2#2 ∧
  Status.unsupported.code = 3#2

/-! ### Steps, reset, and what every operation does -/

/-- R12, R40; that the host's script is a field of State (log 1) and that accepting a request drops the response
before it (log 12) are the model's choices: a step whose host issues a request with a command word that decodes runs
exactly that operation, on the state in which the request is in flight and nothing else of the block has changed. -/
def Obligations.StepRunsTheDecodedOperation : Prop :=
  ∀ (s : State) (r : Request) (rest : List HostAction) (i : Instr),
    s.host = .issue r :: rest → s.inReset = false → decode r.cmd = .ok i →
      step s = exec i { s with host := rest, request := some r, response := none }

/-- R160 (the spec's decision D18): asserting reset makes the block idle, whatever was in flight, with no response; an
operation in progress when reset is asserted is abandoned and produces none; a request during reset is not accepted;
releasing it only releases it; and a reset between two operations changes no later response. -/
def Obligations.ResetBehaviour : Prop :=
  (∀ (s : State) (rest : List HostAction), s.host = .assertReset :: rest →
    ∃ t, step s = .next t ∧ t.host = rest ∧ t.inReset = true ∧ t.request = none ∧ t.response = none) ∧
  (∀ (s : State) (r : Request) (rest : List HostAction) (i : Instr), s.host = .issueThenReset r :: rest →
    s.inReset = false → decode r.cmd = .ok i → i.wellFormedWith r.operand = true →
    ∃ t, step s = .next t ∧ t.host = rest ∧ t.inReset = true ∧ t.request = none ∧ t.response = none) ∧
  (∀ (s : State) (r : Request) (rest : List HostAction),
    (s.host = .issue r :: rest ∨ s.host = .issueThenReset r :: rest) → s.inReset = true →
    step s = .refused .requestDuringReset) ∧
  (∀ (s : State) (rest : List HostAction), s.host = .releaseReset :: rest →
    step s = .next { s with host := rest, inReset := false }) ∧
  (∀ (s t u : State) (r : Request) (rest : List HostAction),
    step { s with host := .assertReset :: .releaseReset :: .issue r :: rest } = .next t → step t = .next u →
      answer (step u) = answer (step { s with host := .issue r :: rest, inReset := false }))

/-- The model's choices (log 1, log 12): with no host action left, the block stays as it is, a held response included.
-/
def Obligations.IdleStepChangesNothing : Prop :=
  ∀ s : State, s.host = [] → step s = .next s

/-- R161, over the model's reset state (log 1, log 2): the first request after reset may be any of the eight
operations; each is answered. -/
def Obligations.AnyOperationRunsFirstAfterReset : Prop :=
  ∀ (i : Instr) (o : SeqOperand), i.wellFormedWith o = true →
    ∃ t r, step { State.reset with host := [.issue { cmd := encode i, operand := o }] } = .next t ∧
      t.response = some r

/-- R167, R10: every operation whose sequence operand is the one it takes ends with a response; one with another
operand is no request of the block and is refused (log 3). -/
def Obligations.EveryLegalRequestIsAnswered : Prop :=
  ∀ (i : Instr) (s : State),
    (i.wellFormedWith s.operand = true → ∃ t r, exec i s = .next t ∧ t.response = some r) ∧
    (i.wellFormedWith s.operand = false → exec i s = .refused (.wrongOperand i.takes))

/-- R37, R143, R147; what "no working state left" is as data is the model's choice (log 2): what an operation leaves
unchanged, success or error: the host's script and the reset line; it ends with the request answered, a response, and
no working state left. -/
def Obligations.OperationFrame : Prop :=
  ∀ (i : Instr) (s t : State), exec i s = .next t →
    t.host = s.host ∧ t.inReset = s.inReset ∧ t.request = none ∧ t.work = Work.discarded ∧ t.response.isSome = true

/-- R11 (decision D5), R143: a response carries a result when and only when its status is `OK`, and the result field
is the one of its operation. -/
def Obligations.ResultFieldExactlyWhenOk : Prop :=
  ∀ (i : Instr) (s t : State) (r : Response), exec i s = .next t → t.response = some r →
    (r.result.isSome = true ↔ r.status = .ok) ∧
    ∀ x, r.result = some x →
      match i with
      | .gfadd _ _ | .gfmul _ _ => ∃ b, x = .byte b
      | .genpoly k => ∃ g, x = .generator g ∧ g.coeffs.length = k.toNat + 1
      | .rsenc k => ∃ d cw, s.operand = .data d ∧ x = .codewords cw ∧ cw.length = d.length + k.toNat
      | .classify => ∃ m, x = .mode m
      | .segenc _ _ => ∃ g, x = .segment g
      | .assemble l => ∃ cw, x = .codewords cw ∧ cw.length = capacity l
      | .encsym l => ∃ cw, x = .codewords cw ∧ cw.length = capacity l + nec l

/-- R14: which statuses each operation can report. -/
def Obligations.StatusTable : Prop :=
  ∀ (i : Instr) (s t : State) (r : Response), exec i s = .next t → t.response = some r → r.status ∈ mayReport i

/-- R21, R37; the value of discarded working state is the model's choice (log 2): the response is a function of the
request alone: whatever two blocks did before and hold in their working registers, the same request gets the same
response, and nothing of the operation survives it. -/
def Obligations.ResponseIsAFunctionOfTheRequest : Prop :=
  ∀ (s t : State) (r : Request) (srest trest : List HostAction),
    s.host = .issue r :: srest → t.host = .issue r :: trest → s.inReset = false → t.inReset = false →
      answer (step s) = answer (step t) ∧ ∀ u, step s = .next u → u.work = Work.discarded

/-- R11, R21, R36, R160; what a legal response holds is R82 (the spec's inference that the generator is monic), R91,
R11 and R131 (2 to 255 codewords), R57, R110 and R116 (the shape of a segment, never Kanji) and R140, R141 (the info);
the value of discarded working state is the model's choice (log 2), and so are keeping the info of an error (log 9)
and how long a response is held (log 12): between any two steps no operation is in flight, no working state is left,
no response is held in reset, and a response that is held is legal. Every step from such a state keeps it so. -/
def Obligations.StepKeepsQuietState : Prop :=
  ∀ s t : State, Inv s → step s = .next t → Inv t

/-- R23, R160 (decision D18; working state log 2): right after reset no operation is in flight, no response is pending
and the reset line is released; the state meets that invariant. -/
def Obligations.ResetStateIsQuiet : Prop :=
  State.reset.request = none ∧ State.reset.response = none ∧ State.reset.inReset = false ∧ Inv State.reset

/-! ### Galois field arithmetic -/

/-- R70: `GFADD` answers the bitwise exclusive or, always `OK`. -/
def Obligations.GfaddAnswersTheExclusiveOr : Prop :=
  ∀ (a b : Byte) (s : State), s.operand = .none →
    exec (.gfadd a b) s = .next (s.respond (.ok (.byte (a ^^^ b))))

/-- R71: `GFMUL` answers, always `OK`, the remainder modulo x^8+x^4+x^3+x^2+1 over GF(2) of the carry-less product
of its operands; with `a = 0` or `b = 0` it is 0. -/
def Obligations.GfmulIsTheProductModuloPoly : Prop :=
  ∀ (a b : Byte) (s : State), s.operand = .none →
    ∃ r : Byte, exec (.gfmul a b) s = .next (s.respond (.ok (.byte r))) ∧
      (∀ p q : Polynomial (ZMod 2), Represents a p → Represents b q →
        Represents r ((p * q) %ₘ
          (Polynomial.X ^ 8 + Polynomial.X ^ 4 + Polynomial.X ^ 3 + Polynomial.X ^ 2 + 1))) ∧
      (a = 0#8 ∨ b = 0#8 → r = 0#8)

/-- R72: the laws of the field a program may rely on; the source states three of them, the spec infers the others
("The others follow from the field being a field"). -/
def Obligations.FieldLaws : Prop :=
  (∀ a b, gfAdd a b = gfAdd b a) ∧ (∀ a b, gfMul a b = gfMul b a) ∧
  (∀ a b c, gfAdd (gfAdd a b) c = gfAdd a (gfAdd b c)) ∧
  (∀ a b c, gfMul (gfMul a b) c = gfMul a (gfMul b c)) ∧
  (∀ a, gfAdd a 0#8 = a) ∧ (∀ a, gfAdd a a = 0#8) ∧ (∀ a, gfMul a 1#8 = a) ∧ (∀ a, gfMul a 0#8 = 0#8) ∧
  (∀ a b c, gfMul a (gfAdd b c) = gfAdd (gfMul a b) (gfMul a c)) ∧
  (∀ a b, gfMul a b = 0#8 → a = 0#8 ∨ b = 0#8)

/-- R71, its corner cases: multiplying by 2 is one shift with the reduction when bit 7 is set, and every non-zero
element has an inverse. -/
def Obligations.DoublingAndInverses : Prop :=
  (∀ b : Byte, gfMul 2#8 b = if b.getLsbD 7 then (b <<< 1) ^^^ 0x1D#8 else b <<< 1) ∧
  (∀ a : Byte, a ≠ 0#8 → ∃ b, gfMul a b = 1#8)

/-- R73; the table and the period are the spec's own inference ("by running the recurrence"): the running power
register holds `gf_exp(i)` after `i` multiplications whatever it held before; the first 256 values are the printed
table; the values for `i` below 255 are distinct and not zero; the period is 255. -/
def Obligations.PowersOfTheGeneratorElement : Prop :=
  (∀ (i : Nat) (wk : Work), (wk.runPower i).power = gfExp i) ∧
  (∀ i, i < 256 → gfExp i = expTable.getD i 0#8) ∧
  (∀ i j, i < 255 → j < 255 → gfExp i = gfExp j → i = j) ∧
  (∀ i, gfExp i ≠ 0#8) ∧ (∀ i, gfExp (i + 255) = gfExp i)

/-! ### Generator polynomials -/

/-- R80: `poly_mul` over the working registers leaves the convolution of its operands, of length
`len(p1)+len(p2)-1`, in the product register, whatever the registers held, and leaves `G`, the factor index and the
running power alone. -/
def Obligations.PolyMulIsTheConvolution : Prop :=
  ∀ (p q : Poly) (wk : Work),
    (wk.polyMul p q).prod.coeffs = product p.coeffs q.coeffs ∧ (wk.polyMul p q).g = wk.g ∧ (wk.polyMul p q).factor = wk.factor ∧
      (wk.polyMul p q).power = wk.power

/-- R81: `GENPOLY` answers the product of the factors `x + α^i`, `i` from 0 to `K-1`; `K = 0` is `InvalidInput` (the
spec's decision D16). -/
def Obligations.GenpolyBuildsTheGenerator : Prop :=
  ∀ (k : Byte) (s : State), s.operand = .none →
    (k = 0#8 → exec (.genpoly k) s = .next (s.respond (.error .zeroEcCount))) ∧
    (k ≠ 0#8 → ∃ g, exec (.genpoly k) s = .next (s.respond (.ok (.generator g))) ∧ g.coeffs = generator k.toNat)

/-- R82, the spec's inference ("by induction on the loop"): the answer of `GENPOLY K` has `K+1` coefficients, is
monic, has the constant term `gf_exp((K*(K-1)/2) mod 255)`, and vanishes at `gf_exp(i)` for every `i < K`. -/
def Obligations.GeneratorIsMonicWithTheRoots : Prop :=
  ∀ (k : Byte) (s : State), k ≠ 0#8 → s.operand = .none →
    ∃ g, exec (.genpoly k) s = .next (s.respond (.ok (.generator g))) ∧
      g.coeffs.length = k.toNat + 1 ∧ g.coeffs.getD k.toNat 0#8 = 1#8 ∧
      g.constTerm = gfExp (k.toNat * (k.toNat - 1) / 2 % 255) ∧ g.constTerm ≠ 0#8 ∧
      ∀ i, i < k.toNat → evalAt g.coeffs (gfExp i) = 0#8

/-- R83, one row of the spec's inference ("by running it"): the printed generator for 10 error-correction codewords. -/
def Obligations.GeneratorOfTen : Prop :=
  ∀ s : State, s.operand = .none →
    exec (.genpoly 10#8) s = .next (s.respond (.ok (.generator
      { constTerm := 0xC1, higher := [0x9D, 0x71, 0x5F, 0x5E, 0xC7, 0x6F, 0x9F, 0xC2, 0xD8, 0x01] })))

/-! ### The Reed-Solomon encoder -/

/-- R91, R140 (the order of the checks is the spec's decision D17, their cause and info are log 9's): the
preconditions of `RSENC`, in order, each with its cause; when all hold it answers codewords. -/
def Obligations.RsencChecksItsPreconditions : Prop :=
  ∀ (d : ByteSeq) (k : Byte) (s : State), s.operand = .data d →
    (d = [] → exec (.rsenc k) s = .next (s.respond (.error .emptyData))) ∧
    (d ≠ [] → k = 0#8 → exec (.rsenc k) s = .next (s.respond (.error .zeroEcCount))) ∧
    (d ≠ [] → k ≠ 0#8 → 255 < d.length + k.toNat →
      exec (.rsenc k) s = .next (s.respond (.error (.fieldSizeOverflow (d.length + k.toNat))))) ∧
    (d ≠ [] → k ≠ 0#8 → d.length + k.toNat ≤ 255 →
      ∃ cw, exec (.rsenc k) s = .next (s.respond (.ok (.codewords cw))))

/-- R90: `RSENC` answers the data followed by the remainder of the long division of the data, laid before `K` zeros,
by the generator polynomial. -/
def Obligations.RsencIsTheLongDivision : Prop :=
  ∀ (d : ByteSeq) (k : Byte) (s : State), s.operand = .data d → d ≠ [] → k ≠ 0#8 → d.length + k.toNat ≤ 255 →
    exec (.rsenc k) s = .next (s.respond (.ok (.codewords (systematic d k.toNat))))

/-- R92 (a), (b), the spec's inference from R90, R82 and R72: the answer begins with the data, has `K` more codewords,
is a multiple of the generator polynomial and evaluates to 0 at `gf_exp(i)` for every `i < K`. -/
def Obligations.RsencAnswersASystematicCodeword : Prop :=
  ∀ (d : ByteSeq) (k : Byte) (s : State), s.operand = .data d → d ≠ [] → k ≠ 0#8 → d.length + k.toNat ≤ 255 →
    ∃ cw, exec (.rsenc k) s = .next (s.respond (.ok (.codewords cw))) ∧
      cw.length = d.length + k.toNat ∧ cw.take d.length = d ∧
      (∃ q : Coeffs, q.length = d.length ∧ cw.reverse = product q (generator k.toNat)) ∧
      ∀ i, i < k.toNat → evalCodewords cw (gfExp i) = 0#8

/-- R92 (c), the spec's inference: the encoder is linear in data of equal length. -/
def Obligations.RsencIsLinear : Prop :=
  ∀ (s : State) (k : Byte) (d1 d2 c1 c2 : ByteSeq), d1.length = d2.length →
    answer (exec (.rsenc k) (asking s (.data d1))) = some (.done (.codewords c1)) →
    answer (exec (.rsenc k) (asking s (.data d2))) = some (.done (.codewords c2)) →
      answer (exec (.rsenc k) (asking s (.data (List.zipWith gfAdd d1 d2)))) =
        some (.done (.codewords (List.zipWith gfAdd c1 c2)))

/-- R90, corner case: with one error-correction codeword it is the exclusive or of all data codewords. -/
def Obligations.SingleEcCodewordIsTheExclusiveOr : Prop :=
  ∀ (d : ByteSeq) (s : State), s.operand = .data d → d ≠ [] → d.length ≤ 254 →
    exec (.rsenc 1#8) s = .next (s.respond (.ok (.codewords (d ++ [d.foldl gfAdd 0#8]))))

/-! ### The mode classifier -/

/-- R100, R101: the precedence order of the classifier, on code points; it always answers `OK`. Which code points
beyond rule R62's constraints are of the Kanji class is the open parameter (log 5). -/
def Obligations.ClassifyFollowsThePrecedence : Prop :=
  ∀ (t : Text) (s : State), s.operand = .text t →
    ∃ m, exec .classify s = .next (s.respond (.ok (.mode m))) ∧
      ((∀ c ∈ t, IsDigit c) → m = .numeric) ∧
      ((∀ c ∈ t, IsAlnum c) → ¬ (∀ c ∈ t, IsDigit c) → m = .alphanumeric) ∧
      (¬ (∀ c ∈ t, IsAlnum c) → (∃ c ∈ t, isKanjiClass c = true) → m = .kanji) ∧
      (¬ (∀ c ∈ t, IsAlnum c) → ¬ (∃ c ∈ t, isKanjiClass c = true) → m = .byte)

/-- R58 (decision D11): the index of a character is the one of the printed table, a character outside it has none, and
two characters never share an index. -/
def Obligations.AlphabetIndexIsTheTable : Prop :=
  (∀ c : CodePoint, alnumIndex c = tableIndex c) ∧
  (∀ c i, alnumIndex c = some i → i < 45) ∧
  (∀ c d i, alnumIndex c = some i → alnumIndex d = some i → c = d)

/-- R62, R102; the open parameter is the model's constant of log 5: whatever the open parameter is, no code point below
U+0080 is of the Kanji class, nor is U+00E9, so that the text of it alone is Byte (V4), and the five characters of the
source's example are. -/
def Obligations.KanjiClassConstraints : Prop :=
  (∀ c : CodePoint, c.toNat < 0x80 → isKanjiClass c = false) ∧
  (∀ c : CodePoint, c.toNat ∈ [0x3053, 0x3093, 0x306B, 0x3061, 0x306F] → isKanjiClass c = true) ∧
  (∀ s : State, s.operand = .text [Char.ofNat 0xE9] →
    exec .classify s = .next (s.respond (.ok (.mode .byte))))

/-- R61 (decision D6, log 6): the bytes of a text are the UTF-8 bytes of its code points in order. -/
def Obligations.TextBytesAreUtf8 : Prop :=
  ∀ t : Text, (textBytes t).map BitVec.toNat = t.flatMap (fun c => (String.utf8EncodeChar c).map UInt8.toNat)

/-! ### The segment encoder -/

/-- R54: a field appended to a bit stream adds its `w` bits, most significant first, at the end, and nothing
before it changes. -/
def Obligations.AppendBitsIsMostSignificantFirst : Prop :=
  ∀ (bs : BitSeq) (v w : Nat), v < 2 ^ w →
    appendBits bs v w = bs ++ fieldBits v w ∧ (appendBits bs v w).length = bs.length + w ∧
      valueOf ((appendBits bs v w).drop bs.length) = v

/-- R112, R116, R117, R118 (decisions D7, D9, D17, D22; the info of an error is log 9's): the order of detection in
`SEGENC`: the count check; then `Unsupported` for Kanji; then the first character outside the alphabet of Numeric or
Alphanumeric mode; if none applies it answers a segment. -/
def Obligations.SegencOrderOfDetection : Prop :=
  ∀ (t : Text) (m : Mode) (l : ECLevel) (s : State) (n : Nat), s.operand = .text t →
    n = (if m = .byte then (textBytes t).length else t.length) →
    (2 ^ countBits m ≤ n → exec (.segenc m l) s = .next (s.respond (.error (.countTooLarge n)))) ∧
    (n < 2 ^ countBits m → m = .kanji → exec (.segenc m l) s = .next (s.respond (.error .kanjiMode))) ∧
    (∀ (pre : Text) (c : CodePoint) (post : Text), n < 2 ^ countBits m → t = pre ++ c :: post →
      (m = .numeric ∧ (∀ d ∈ pre, IsDigit d) ∧ ¬ IsDigit c ∨
        m = .alphanumeric ∧ (∀ d ∈ pre, IsAlnum d) ∧ ¬ IsAlnum c) →
      exec (.segenc m l) s = .next (s.respond (.error (.misfitCharacter pre.length)))) ∧
    (n < 2 ^ countBits m → m ≠ .kanji → (m = .numeric → ∀ c ∈ t, IsDigit c) →
      (m = .alphanumeric → ∀ c ∈ t, IsAlnum c) →
      ∃ g, exec (.segenc m l) s = .next (s.respond (.ok (.segment g))))

/-- R110, R113, R59: the segment of a digits-only text in Numeric mode. -/
def Obligations.SegencNumericSegment : Prop :=
  ∀ (t : Text) (l : ECLevel) (s : State), s.operand = .text t → t.length ≤ 1023 → (∀ c ∈ t, IsDigit c) →
    exec (.segenc .numeric l) s = .next (s.respond (.ok (.segment
      { mode := .numeric, mi := [false, false, false, true], cci := fieldBits t.length 10, data := numericBits t })))

/-- R110, R114, over the index table of R58 (the spec's decision D11): the segment of a text of the alphabet in
Alphanumeric mode. -/
def Obligations.SegencAlphanumericSegment : Prop :=
  ∀ (t : Text) (l : ECLevel) (s : State), s.operand = .text t → t.length ≤ 511 → (∀ c ∈ t, IsAlnum c) →
    exec (.segenc .alphanumeric l) s = .next (s.respond (.ok (.segment
      { mode := .alphanumeric, mi := [false, false, true, false], cci := fieldBits t.length 9, data := alnumBits t })))

/-- R110, R115: the segment of any text in Byte mode, whose count is the number of bytes (R112, decision D7) of its
UTF-8 form (decision D6). -/
def Obligations.SegencByteSegment : Prop :=
  ∀ (t : Text) (l : ECLevel) (s : State), s.operand = .text t → (textBytes t).length ≤ 255 →
    exec (.segenc .byte l) s = .next (s.respond (.ok (.segment
      { mode := .byte, mi := [false, true, false, false], cci := fieldBits (textBytes t).length 8
        data := bitsOf (textBytes t) })))

/-- R57, R112 (decision D7), R113, R114, R115: the widths of the three parts of every segment `SEGENC` answers, and
the count the indicator holds. -/
def Obligations.SegmentWidths : Prop :=
  ∀ (t : Text) (m : Mode) (l : ECLevel) (s : State) (g : Segment),
    answer (exec (.segenc m l) (asking s (.text t))) = some (.done (.segment g)) →
      g.mode = m ∧ g.mi.length = 4 ∧ g.cci.length = countBits m ∧
      valueOf g.cci = (if m = .byte then (textBytes t).length else t.length) ∧
      (m = .numeric → g.data.length = 10 * (t.length / 3) + [0, 4, 7].getD (t.length % 3) 0) ∧
      (m = .alphanumeric → g.data.length = 11 * (t.length / 2) + 6 * (t.length % 2)) ∧
      (m = .byte → g.data.length = 8 * (textBytes t).length)

/-- R111, the spec's inference from R110: `SEGENC` with the same text and mode answers the same at all four levels,
whatever the block did before. -/
def Obligations.SegencIgnoresTheLevel : Prop :=
  ∀ (m : Mode) (l1 l2 : ECLevel) (s t : State), s.operand = t.operand →
    answer (exec (.segenc m l1) s) = answer (exec (.segenc m l2) t)

/-- Derived from R110 to R115, R58 (decision D11) and R61: a segment says which text it encodes: in one mode, two texts
with the same segment are the same text. The Byte-mode case rests on log 6 (PRESUMED): `TEXT_BYTES` is UTF-8 (the
spec's decision D6, which lets it be a parameter), so it is one-to-one, and the count is of its bytes (decision D7). -/
def Obligations.SegmentDeterminesTheText : Prop :=
  ∀ (s : State) (m : Mode) (l : ECLevel) (t1 t2 : Text) (g : Segment),
    answer (exec (.segenc m l) (asking s (.text t1))) = some (.done (.segment g)) →
    answer (exec (.segenc m l) (asking s (.text t2))) = some (.done (.segment g)) → t1 = t2

/-! ### The assembler -/

/-- R128 (the point of the check is the spec's decision D13; the info of the error is log 9's): `ASSEMBLE` succeeds
exactly when the segment and its terminator fit the capacity, and otherwise raises `CapacityExceeded` with the bytes
so far and the capacity. -/
def Obligations.AssembleCapacityCheck : Prop :=
  ∀ (g : Segment) (l : ECLevel) (s : State), s.operand = .seg g →
    (segmentLength g + 4 ≤ 8 * capacity l →
      ∃ cw, exec (.assemble l) s = .next (s.respond (.ok (.codewords cw)))) ∧
    (8 * capacity l < segmentLength g + 4 →
      exec (.assemble l) s =
        .next (s.respond (.error (.overCapacity ((segmentLength g + 4 + 7) / 8) (capacity l)))))

/-- R125, R126, R127, R129, R31 (first bit of eight is bit 7: the spec's decision D12, log 10; success when the
aligned byte length fits: decision D13): what `ASSEMBLE` answers: exactly the capacity in bytes; as bits, most
significant first, the three parts of the segment, four zero bits and zeros to the next byte boundary; then pad bytes,
0xEC and 0x11 in turn, 0xEC first. -/
def Obligations.AssembleLayout : Prop :=
  ∀ (g : Segment) (l : ECLevel) (s : State), s.operand = .seg g → segmentLength g + 4 ≤ 8 * capacity l →
    ∃ cw, exec (.assemble l) s = .next (s.respond (.ok (.codewords cw))) ∧ cw.length = capacity l ∧
      ∃ z, z < 8 ∧ (segmentLength g + 4 + z) % 8 = 0 ∧
        bitsOf (cw.take ((segmentLength g + 4 + z) / 8)) =
          g.mi ++ g.cci ++ g.data ++ List.replicate 4 false ++ List.replicate z false ∧
        ∀ p, (segmentLength g + 4 + z) / 8 + p < capacity l →
          cw.getD ((segmentLength g + 4 + z) / 8 + p) 0#8 = if p % 2 = 0 then 0xEC#8 else 0x11#8

/-- R17, R31 (decision D12): the codeword view of a byte-aligned stream loses no bit and keeps the order: read back
most significant bit first it is the stream. -/
def Obligations.CodewordViewKeepsTheBits : Prop :=
  ∀ bs : BitSeq, bs.length % 8 = 0 →
    (codewords bs).length = bs.length / 8 ∧ bitsOf (codewords bs) = bs

/-! ### The whole pipeline -/

/-- R130, R132, R146, R60: `ENCSYM` is `CLASSIFY`, `SEGENC`, `ASSEMBLE`, `RSENC` with `K = NEC(level)`, each fed the
answer of the one before; an error of `SEGENC` or `ASSEMBLE` is its answer. -/
def Obligations.EncsymIsThePipeline : Prop :=
  ∀ (t : Text) (l : ECLevel) (s : State) (m : Mode),
    answer (exec .classify (asking s (.text t))) = some (.done (.mode m)) →
    (∀ c, answer (exec (.segenc m l) (asking s (.text t))) = some (.raised c) →
      answer (exec (.encsym l) (asking s (.text t))) = some (.raised c)) ∧
    (∀ g, answer (exec (.segenc m l) (asking s (.text t))) = some (.done (.segment g)) →
      (∀ c, answer (exec (.assemble l) (asking s (.seg g))) = some (.raised c) →
        answer (exec (.encsym l) (asking s (.text t))) = some (.raised c)) ∧
      (∀ d, answer (exec (.assemble l) (asking s (.seg g))) = some (.done (.codewords d)) →
        answer (exec (.encsym l) (asking s (.text t))) =
          answer (exec (.rsenc (BitVec.ofNat 8 (nec l))) (asking s (.data d)))))

/-- R133, the spec's inference from R110 to R115, R125 and R128: the longest input `ENCSYM` takes at each level: up to
the table's entry it answers `CAPACITY + NEC` codewords, and one more digit, character or byte is `CapacityExceeded`.
-/
def Obligations.LongestInputs : Prop :=
  ∀ (t : Text) (l : ECLevel) (s : State), s.operand = .text t → classify t ≠ .kanji →
    (charCount t (classify t) ≤ longest (classify t) l →
      ∃ cw, exec (.encsym l) s = .next (s.respond (.ok (.codewords cw))) ∧ cw.length = capacity l + nec l) ∧
    (longest (classify t) l < charCount t (classify t) →
      ∃ c, exec (.encsym l) s = .next (s.respond (.error c)) ∧ c.status = .capacityExceeded)

/-- R130, R92: a successful `ENCSYM` answers one systematic codeword: the assembler's bytes, then `NEC(level)` more,
and the whole evaluates to 0 at `gf_exp(i)` for every `i < NEC(level)`. It holds of every value of the open parameter
`NEC` that rule R131 admits (log 4). -/
def Obligations.EncsymAnswersACodeword : Prop :=
  ∀ (t : Text) (l : ECLevel) (s : State) (cw : ByteSeq),
    answer (exec (.encsym l) (asking s (.text t))) = some (.done (.codewords cw)) →
      cw.length = capacity l + nec l ∧
      (∃ m g, answer (exec .classify (asking s (.text t))) = some (.done (.mode m)) ∧
        answer (exec (.segenc m l) (asking s (.text t))) = some (.done (.segment g)) ∧
        answer (exec (.assemble l) (asking s (.seg g))) = some (.done (.codewords (cw.take (capacity l))))) ∧
      ∀ i, i < nec l → evalCodewords cw (gfExp i) = 0#8

/-- R131, R130: the open parameter `NEC` meets the Reed-Solomon preconditions at every level, so `ENCSYM` never
reports `InvalidInput`. -/
def Obligations.EncsymNeverInvalidInput : Prop :=
  (∀ l : ECLevel, 1 ≤ nec l ∧ capacity l + nec l ≤ 255) ∧
  ∀ (l : ECLevel) (s : State) (r : Response), answer (exec (.encsym l) s) = some r → r.status ≠ .invalidInput

/-- R102, R116, R142 (decision D9), R112, R141 (the cause and the info of the error are log 9's): Kanji is detected,
not encoded: `ENCSYM` of a text that classifies as Kanji is `Unsupported`, or `CapacityExceeded` when its count does
not fit. -/
def Obligations.EncsymOfKanjiIsUnsupported : Prop :=
  ∀ (t : Text) (l : ECLevel) (s : State), s.operand = .text t → classify t = .kanji →
    (t.length ≤ 255 → exec (.encsym l) s = .next (s.respond (.error .kanjiMode))) ∧
    (255 < t.length → exec (.encsym l) s = .next (s.respond (.error (.countTooLarge t.length))))

/-- R140, R141, R142 (decisions D9, D22; causes are log 9's): with which status each cause is reported. -/
def Obligations.CausesHaveTheirStatus : Prop :=
  Cause.emptyData.status = .invalidInput ∧ Cause.zeroEcCount.status = .invalidInput ∧
  (∀ n, (Cause.fieldSizeOverflow n).status = .invalidInput) ∧
  (∀ p, (Cause.misfitCharacter p).status = .invalidInput) ∧
  (∀ n, (Cause.countTooLarge n).status = .capacityExceeded) ∧
  (∀ b c, (Cause.overCapacity b c).status = .capacityExceeded) ∧
  Cause.kanjiMode.status = .unsupported

/-- R11, R143; the cause kept beside the status is log 9's: how a block ends an operation: the response holds the result
as it was computed, or the error and no result; the request is answered and nothing else of the interface changes. -/
def Obligations.RespondingHoldsTheOutcome : Prop :=
  (∀ (s : State) (x : Result), (s.respond (.ok x)).response = some (.done x) ∧
    (Response.done x).status = .ok ∧ (Response.done x).result = some x) ∧
  (∀ (s : State) (c : Cause), (s.respond (.error c)).response = some (.raised c) ∧
    (Response.raised c).status = c.status ∧ (Response.raised c).result = none) ∧
  (∀ (s : State) (o : Except Cause Result), (s.respond o).request = none ∧ (s.respond o).host = s.host ∧
    (s.respond o).inReset = s.inReset)
end

