-- ==== Sys2Proof/Laws/Bits.lean ====
section
/-! SUPPORT. What appending a field and taking the codeword view do (R31, R54), and bit fields read back as
numbers. -/

namespace Sys2Proof.Machine

open Sys2Proof.Safety

@[simp] theorem fieldBits_length (v w : Nat) : (fieldBits v w).length = w := by
  induction w with
  | zero => rfl
  | succ w ih => simp [fieldBits, ih]

/-- The bits `append_bits` adds are those of the field. -/
theorem fieldBits_eq_map (v w : Nat) : (List.range w).map (fun b => v.testBit (w - 1 - b)) = fieldBits v w := by
  induction w with
  | zero => rfl
  | succ w ih =>
    rw [List.range_succ_eq_map, List.map_cons, List.map_map, fieldBits, ← ih]
    congr 1
    · simp [Nat.testBit_eq_decide_div_mod_eq]
    · refine List.map_congr_left fun b hb => ?_
      simp only [Function.comp_apply, Nat.succ_eq_add_one]
      congr 1
      omega

theorem appendBits_eq (bs : BitSeq) (v w : Nat) : appendBits bs v w = bs ++ fieldBits v w := by
  rw [appendBits, fieldBits_eq_map]

@[simp] theorem appendBits_length (bs : BitSeq) (v w : Nat) : (appendBits bs v w).length = bs.length + w := by
  simp [appendBits]

/-- A field depends on its value modulo `2^w` only. -/
theorem fieldBits_mod (v w n : Nat) (h : w ≤ n) : fieldBits (v % 2 ^ n) w = fieldBits v w := by
  induction w with
  | zero => rfl
  | succ w ih =>
    rw [fieldBits, fieldBits, ih (by omega)]
    have := Nat.testBit_mod_two_pow v n w
    simp only [Nat.testBit_eq_decide_div_mod_eq, show w < n by omega, decide_true, Bool.true_and] at this
    rw [this]

theorem foldl_valueOf (bs : BitSeq) (a : Nat) :
    bs.foldl (fun v b => 2 * v + b.toNat) a = a * 2 ^ bs.length + valueOf bs := by
  induction bs generalizing a with
  | nil => simp [valueOf]
  | cons b bs ih =>
    have h1 : valueOf (b :: bs) = (2 * 0 + b.toNat) * 2 ^ bs.length + valueOf bs := ih (2 * 0 + b.toNat)
    rw [List.foldl_cons, ih, h1, List.length_cons]
    ring

theorem valueOf_cons (b : Bool) (bs : BitSeq) : valueOf (b :: bs) = b.toNat * 2 ^ bs.length + valueOf bs := by
  rw [valueOf, List.foldl_cons, foldl_valueOf]
  simp

theorem valueOf_lt (bs : BitSeq) : valueOf bs < 2 ^ bs.length := by
  induction bs with
  | nil => simp [valueOf]
  | cons b bs ih =>
    rw [valueOf_cons, List.length_cons, pow_succ]
    cases b <;> simp <;> omega

/-- Reading a field back gives its value, modulo `2^w`. -/
theorem valueOf_fieldBits (v w : Nat) : valueOf (fieldBits v w) = v % 2 ^ w := by
  induction w with
  | zero => simp [fieldBits, valueOf, Nat.mod_one]
  | succ w ih =>
    rw [fieldBits, valueOf_cons, ih, fieldBits_length, Nat.mod_pow_succ]
    have h2 : v / 2 ^ w % 2 = 0 ∨ v / 2 ^ w % 2 = 1 := by omega
    rcases h2 with h | h <;> (simp [h]; try omega)

/-- A bit sequence is the field of the number it spells. -/
theorem fieldBits_valueOf (bs : BitSeq) : fieldBits (valueOf bs) bs.length = bs := by
  induction bs with
  | nil => rfl
  | cons b bs ih =>
    rw [List.length_cons, fieldBits, valueOf_cons]
    have hv := valueOf_lt bs
    congr 1
    · rw [Nat.mul_comm, Nat.mul_add_div (by positivity), Nat.div_eq_of_lt hv]
      cases b <;> simp
    · rw [← fieldBits_mod _ _ bs.length (le_refl _), Nat.mul_comm, Nat.mul_add_mod, Nat.mod_eq_of_lt hv, ih]

@[simp] theorem codewords_length (bs : BitSeq) : (codewords bs).length = bs.length / 8 := by
  simp [codewords]

/-- The codeword at a position is the number its eight bits spell, the first most significant. -/
theorem codewordAt_eq (bs : BitSeq) (i : Nat) (h : 8 * i + 8 ≤ bs.length) :
    codewordAt bs i = BitVec.ofNat 8 (valueOf ((bs.drop (8 * i)).take 8)) := by
  have hb : ∀ b, b < 8 → ((bs.drop (8 * i)).take 8)[b]? = some (bs.getD (8 * i + b) false) := by
    intro b hb
    rw [List.getElem?_take_of_lt hb, List.getElem?_drop, List.getD_eq_getElem?_getD,
      List.getElem?_eq_getElem (by omega), Option.getD_some]
  have : (bs.drop (8 * i)).take 8 = (List.range 8).map (fun b => bs.getD (8 * i + b) false) := by
    apply List.ext_getElem?
    intro b
    by_cases hlt : b < 8
    · rw [hb b hlt]; simp [hlt]
    · rw [List.getElem?_eq_none (by simp; omega), List.getElem?_eq_none (by simp; omega)]
  rw [this, codewordAt]
  congr 1
  simp [List.range_succ, valueOf]
  ring

end Sys2Proof.Machine
end

