-- ==== Sys2Proof/Laws/State.lean ====
section
/-! SUPPORT. One lemma per field for each named update of the state, true by rfl, so that no proof unfolds a record
update. -/

namespace Sys2Proof.Machine

variable (s : State) (r : Request) (rest : List HostAction) (o : Except Cause Result)

@[simp] theorem State.accept_host : (s.accept r rest).host = rest := rfl
@[simp] theorem State.accept_inReset : (s.accept r rest).inReset = s.inReset := rfl
@[simp] theorem State.accept_request : (s.accept r rest).request = some r := rfl
@[simp] theorem State.accept_response : (s.accept r rest).response = none := rfl
@[simp] theorem State.accept_work : (s.accept r rest).work = s.work := rfl
@[simp] theorem State.accept_operand : (s.accept r rest).operand = r.operand := rfl

@[simp] theorem State.respond_host : (s.respond o).host = s.host := rfl
@[simp] theorem State.respond_inReset : (s.respond o).inReset = s.inReset := rfl
@[simp] theorem State.respond_request : (s.respond o).request = none := rfl
@[simp] theorem State.respond_response : (s.respond o).response = some (responseOf o) := rfl
@[simp] theorem State.respond_work : (s.respond o).work = Work.discarded := rfl

@[simp] theorem State.enterReset_host : (s.enterReset rest).host = rest := rfl
@[simp] theorem State.enterReset_inReset : (s.enterReset rest).inReset = true := rfl
@[simp] theorem State.enterReset_request : (s.enterReset rest).request = none := rfl
@[simp] theorem State.enterReset_response : (s.enterReset rest).response = none := rfl
@[simp] theorem State.enterReset_work : (s.enterReset rest).work = Work.discarded := rfl

@[simp] theorem State.leaveReset_host : (s.leaveReset rest).host = rest := rfl
@[simp] theorem State.leaveReset_inReset : (s.leaveReset rest).inReset = false := rfl
@[simp] theorem State.leaveReset_request : (s.leaveReset rest).request = s.request := rfl
@[simp] theorem State.leaveReset_response : (s.leaveReset rest).response = s.response := rfl
@[simp] theorem State.leaveReset_work : (s.leaveReset rest).work = s.work := rfl

@[simp] theorem State.asking_operand (q : SeqOperand) : (Safety.asking s q).operand = q := rfl
@[simp] theorem State.asking_work (q : SeqOperand) : (Safety.asking s q).work = s.work := rfl

/-- Two responses that end an operation the same way leave the same block, whatever it held before: only the host's
script and the reset line are carried over. -/
theorem State.respond_congr {s t : State} (h : s.host = t.host) (hr : s.inReset = t.inReset)
    (o : Except Cause Result) : s.respond o = t.respond o := by
  cases s; cases t; simp_all [State.respond]

end Sys2Proof.Machine
end

