-- ==== Sys2Proof/Laws/Exec.lean ====
section
/-! SUPPORT. What a meaning, `exec` and `step` can do, each said once: an operation whose sequence operand is the one it
takes responds, any other is refused, and nothing else happens. -/

namespace Sys2Proof.Machine

/-- What an operation computes from its sequence operand and the working state (R11, R143); `none` where the operand
is not the one it takes. -/
def outcomeOf (i : Instr) (o : SeqOperand) (wk : Work) : Option (Except Cause Result) :=
  match i, o with
  | .gfadd a b, .none => some (.ok (.byte (gfAdd a b)))
  | .gfmul a b, .none => some (.ok (.byte (gfMul a b)))
  | .genpoly k, .none => some (genpolyResult k.toNat wk)
  | .rsenc k, .data d => some (rsencResult d k.toNat wk)
  | .classify, .text t => some (.ok (.mode (classify t)))
  | .segenc m l, .text t => some (segencResult t m l wk)
  | .assemble l, .seg g => some (assembleResult g l wk)
  | .encsym l, .text t => some (encsymResult t l wk)
  | _, _ => none

/-- Everything `exec` can do. -/
theorem exec_eq (i : Instr) (s : State) :
    exec i s = match outcomeOf i s.operand s.work with
      | some o => .next (s.respond o)
      | none => .refused (.wrongOperand i.takes) := by
  cases i <;> cases h : s.operand <;>
    simp [exec, execGfadd, execGfmul, execGenpoly, execRsenc, execClassify, execSegenc, execAssemble, execEncsym,
      outcomeOf, Instr.takes, h]

/-- An operation that answers a next state responds, and does nothing else. -/
theorem exec_next {i : Instr} {s t : State} (h : exec i s = .next t) :
    ∃ o, outcomeOf i s.operand s.work = some o ∧ t = s.respond o := by
  rw [exec_eq] at h
  cases ho : outcomeOf i s.operand s.work with
  | none => rw [ho] at h; cases h
  | some o => rw [ho] at h; cases h; exact ⟨o, rfl, rfl⟩

/-- No operation stops with a fault (R142). -/
theorem exec_not_fault (i : Instr) (s : State) (f : Fault) : exec i s ≠ .fault f := by
  cases f

theorem exec_gfadd {a b : Byte} {s : State} (h : s.operand = .none) :
    exec (.gfadd a b) s = .next (s.respond (.ok (.byte (gfAdd a b)))) := by simp [exec_eq, outcomeOf, h]

theorem exec_gfmul {a b : Byte} {s : State} (h : s.operand = .none) :
    exec (.gfmul a b) s = .next (s.respond (.ok (.byte (gfMul a b)))) := by simp [exec_eq, outcomeOf, h]

theorem exec_genpoly {k : Byte} {s : State} (h : s.operand = .none) :
    exec (.genpoly k) s = .next (s.respond (genpolyResult k.toNat s.work)) := by simp [exec_eq, outcomeOf, h]

theorem exec_rsenc {k : Byte} {s : State} {d : ByteSeq} (h : s.operand = .data d) :
    exec (.rsenc k) s = .next (s.respond (rsencResult d k.toNat s.work)) := by simp [exec_eq, outcomeOf, h]

theorem exec_classify {s : State} {t : Text} (h : s.operand = .text t) :
    exec .classify s = .next (s.respond (.ok (.mode (classify t)))) := by simp [exec_eq, outcomeOf, h]

theorem exec_segenc {m : Mode} {l : ECLevel} {s : State} {t : Text} (h : s.operand = .text t) :
    exec (.segenc m l) s = .next (s.respond (segencResult t m l s.work)) := by simp [exec_eq, outcomeOf, h]

theorem exec_assemble {l : ECLevel} {s : State} {g : Segment} (h : s.operand = .seg g) :
    exec (.assemble l) s = .next (s.respond (assembleResult g l s.work)) := by simp [exec_eq, outcomeOf, h]

theorem exec_encsym {l : ECLevel} {s : State} {t : Text} (h : s.operand = .text t) :
    exec (.encsym l) s = .next (s.respond (encsymResult t l s.work)) := by simp [exec_eq, outcomeOf, h]

/-- The answer of an operation, read off its outcome. -/
theorem answer_exec (i : Instr) (s : State) :
    Safety.answer (exec i s) = (outcomeOf i s.operand s.work).map responseOf := by
  rw [exec_eq]
  cases outcomeOf i s.operand s.work <;> rfl

/-- Everything `step` can do when it answers a next state: stay idle, serve a request, or move the reset line. -/
theorem step_next {s t : State} (h : step s = .next t) :
    (s.host = [] ∧ t = s) ∨
    (∃ r rest i o, s.host = .issue r :: rest ∧ s.inReset = false ∧ decode r.cmd = .ok i ∧
      outcomeOf i r.operand s.work = some o ∧ t = (s.accept r rest).respond o) ∨
    (∃ rest, (s.host = .assertReset :: rest ∨ ∃ r, s.host = .issueThenReset r :: rest) ∧ t = s.enterReset rest) ∨
    (∃ rest, s.host = .releaseReset :: rest ∧ t = s.leaveReset rest) := by
  unfold step at h
  split at h
  · next hh => cases h; exact .inl ⟨hh, rfl⟩
  · next r rest hh =>
    unfold serve at h
    split at h
    · cases h
    · next hr =>
      split at h
      · cases h
      · next i hd =>
        obtain ⟨o, ho, rfl⟩ := exec_next h
        exact .inr (.inl ⟨r, rest, i, o, hh, by simpa using hr, hd, ho, rfl⟩)
  · next r rest hh =>
    unfold serveAbandoned at h
    split at h
    · cases h
    · split at h
      · cases h
      · split at h
        · cases h; exact .inr (.inr (.inl ⟨rest, .inr ⟨r, hh⟩, rfl⟩))
        · cases h
  · next rest hh => cases h; exact .inr (.inr (.inl ⟨rest, .inl hh, rfl⟩))
  · next rest hh => cases h; exact .inr (.inr (.inr ⟨rest, hh, rfl⟩))

/-- A step that serves a request, written as the operation. -/
theorem step_issue {s : State} {r : Request} {rest : List HostAction} (hh : s.host = .issue r :: rest) :
    step s = serve r rest s := by
  simp [step, hh]

end Sys2Proof.Machine
end

