-- ==== Sys2Proof/Laws/Poly.lean ====
section
/-! SUPPORT. Polynomials through their coefficient lists: what each accessor does to the coefficients and their
number. -/

namespace Sys2Proof

variable (p : Poly) (n : Nat) (c : Byte)

@[simp] theorem Poly.coeffs_mk (l : List Byte) : (Poly.mk c l).coeffs = c :: l := rfl

@[simp] theorem Poly.coeffs_length : p.coeffs.length = p.size := rfl

@[simp] theorem Poly.coeffs_ne_nil : p.coeffs ≠ [] := List.cons_ne_nil _ _

theorem Poly.size_pos : 0 < p.size := Nat.succ_pos _

/-- A polynomial is its coefficients. -/
theorem Poly.coeffs_inj {p q : Poly} : p.coeffs = q.coeffs ↔ p = q := by
  cases p; cases q; simp

@[simp] theorem Poly.coeffs_setCoeff : (p.setCoeff n c).coeffs = p.coeffs.set n c := by
  cases n <;> rfl

@[simp] theorem Poly.size_setCoeff : (p.setCoeff n c).size = p.size := by
  rw [← Poly.coeffs_length, Poly.coeffs_setCoeff, List.length_set, Poly.coeffs_length]

@[simp] theorem Poly.coeffs_zeros : (Poly.zeros n).coeffs = List.replicate (n + 1) 0#8 := rfl

@[simp] theorem Poly.size_zeros : (Poly.zeros n).size = n + 1 := by
  rw [← Poly.coeffs_length, Poly.coeffs_zeros, List.length_replicate]

end Sys2Proof
end

