-- ==== Sys2Proof/Laws/Loops.lean ====
section
/-! SUPPORT. The loops over the working registers: which registers a loop leaves alone, and the length of what it
builds. -/

namespace Sys2Proof.Machine

open Sys2Proof.Safety

/-- What the body of a loop leaves alone, the loop leaves alone. -/
theorem iterate_keeps {α β : Type} {f : α → α} {view : α → β} (h : ∀ a, view (f a) = view a) (n : Nat) (a : α) :
    view (f^[n] a) = view a := by
  induction n generalizing a with
  | zero => rfl
  | succ n ih => rw [Function.iterate_succ_apply, ih, h]

/-- What the body of a loop adds one to, the loop adds its count to. -/
theorem iterate_counts {α : Type} {f : α → α} {view : α → Nat} {c : Nat} (h : ∀ a, view (f a) = view a + c) (n : Nat)
    (a : α) : view (f^[n] a) = view a + n * c := by
  induction n generalizing a with
  | zero => simp
  | succ n ih => rw [Function.iterate_succ_apply, ih, h]; ring

/-! ### The running power -/

/-- Everything `gf_exp` does to the working state (R73). -/
theorem Work.runPower_eq (i : Nat) (wk : Work) : wk.runPower i = { wk with power := gfExp i } := by
  induction i with
  | zero => rfl
  | succ i ih =>
    unfold Work.runPower at ih ⊢
    rw [Function.iterate_succ_apply', ih]
    rfl

/-! ### `poly_mul` and `build_generator` -/

theorem Work.mulRow_keeps (p q : Poly) (wk : Work) :
    (wk.mulRow p q).g = wk.g ∧ (wk.mulRow p q).factor = wk.factor ∧ (wk.mulRow p q).power = wk.power ∧
      (wk.mulRow p q).prod.size = wk.prod.size ∧ (wk.mulRow p q).mulI = wk.mulI + 1 := by
  refine ⟨?_, ?_, ?_, ?_, ?_⟩
  · exact iterate_keeps (f := Work.mulTerm p q) (view := Work.g) (fun _ => rfl) _ _
  · exact iterate_keeps (f := Work.mulTerm p q) (view := Work.factor) (fun _ => rfl) _ _
  · exact iterate_keeps (f := Work.mulTerm p q) (view := Work.power) (fun _ => rfl) _ _
  · exact iterate_keeps (f := Work.mulTerm p q) (view := fun w => w.prod.size) (fun _ => Poly.size_setCoeff _ _ _) _ _
  · exact congrArg (· + 1) (iterate_keeps (f := Work.mulTerm p q) (view := Work.mulI) (fun _ => rfl) _ _)

/-- What `poly_mul` leaves alone, and how many coefficients its result has, `len(p) + len(q) - 1` (R80). -/
theorem Work.polyMul_keeps (p q : Poly) (wk : Work) :
    (wk.polyMul p q).g = wk.g ∧ (wk.polyMul p q).factor = wk.factor ∧ (wk.polyMul p q).power = wk.power ∧
      (wk.polyMul p q).prod.size = p.size + q.size - 1 := by
  refine ⟨?_, ?_, ?_, ?_⟩
  · exact iterate_keeps (f := Work.mulRow p q) (view := Work.g) (fun w => (w.mulRow_keeps p q).1) _ _
  · exact iterate_keeps (f := Work.mulRow p q) (view := Work.factor) (fun w => (w.mulRow_keeps p q).2.1) _ _
  · exact iterate_keeps (f := Work.mulRow p q) (view := Work.power) (fun w => (w.mulRow_keeps p q).2.2.1) _ _
  · exact (iterate_keeps (f := Work.mulRow p q) (view := fun w => w.prod.size)
      (fun w => (w.mulRow_keeps p q).2.2.2.1) _ _).trans (by rw [Poly.size_zeros]; unfold Poly.size; omega)

/-- One factor of the builder (R81), in terms of `poly_mul` alone. -/
theorem Work.nextFactor_g (wk : Work) :
    wk.nextFactor.g = ({ wk with power := gfExp wk.factor }.polyMul wk.g ⟨gfExp wk.factor, [1#8]⟩).prod ∧
      wk.nextFactor.factor = wk.factor + 1 := by
  unfold Work.nextFactor
  simp only [Work.runPower_eq]
  exact ⟨trivial, congrArg (· + 1) (Work.polyMul_keeps _ _ _).2.1⟩

/-- After `k` factors the factor index is `k` and `G` has `k + 1` coefficients (R82). -/
theorem Work.buildGenerator_counts (k : Nat) (wk : Work) :
    (wk.buildGenerator k).factor = k ∧ (wk.buildGenerator k).g.size = k + 1 := by
  induction k with
  | zero => exact ⟨rfl, rfl⟩
  | succ k ih =>
    unfold Work.buildGenerator at ih ⊢
    rw [Function.iterate_succ_apply']
    obtain ⟨hf, hg⟩ := ih
    refine ⟨by rw [(Work.nextFactor_g _).2, hf], ?_⟩
    rw [(Work.nextFactor_g _).1, (Work.polyMul_keeps _ _ _).2.2.2, hg]
    simp [Poly.size]

/-! ### The divider -/

/-- One division step keeps `G` and the length of `W`, and moves to the next position (R90). -/
theorem Work.divPosition_keeps (k : Nat) (wk : Work) :
    (wk.divPosition k).g = wk.g ∧ (wk.divPosition k).w.length = wk.w.length ∧
      (wk.divPosition k).pos = wk.pos + 1 := by
  unfold Work.divPosition
  by_cases h : wk.w.getD wk.pos 0#8 ≠ 0#8
  · simp only [if_pos h]
    refine ⟨?_, ?_, ?_⟩
    · exact iterate_keeps (f := Work.divTap k) (view := Work.g) (fun _ => rfl) _ _
    · exact iterate_keeps (f := Work.divTap k) (view := fun w => w.w.length) (fun _ => by simp [Work.divTap]) _ _
    · exact congrArg (· + 1) (iterate_keeps (f := Work.divTap k) (view := Work.pos) (fun _ => rfl) _ _)
  · simp only [if_neg h, and_self]

/-- The buffer keeps its length `len(DATA) + K` (R19). -/
theorem Work.rsDivide_length (d : ByteSeq) (k : Nat) (wk : Work) : (wk.rsDivide d k).w.length = d.length + k :=
  (iterate_keeps (f := Work.divPosition k) (view := fun w => w.w.length)
    (fun w => (w.divPosition_keeps k).2.1) _ _).trans (by simp)

/-- The encoder's result has `len(DATA) + K` codewords and begins with the data (R92 (a)). -/
theorem rsEncode_shape (d : ByteSeq) (k : Nat) (wk : Work) :
    (rsEncode d k wk).length = d.length + k ∧ (rsEncode d k wk).take d.length = d := by
  simp [rsEncode, Work.rsDivide_length]

/-- The preconditions hold exactly when the check passes (R91). -/
theorem checkRs_ok {n k : Nat} : checkRs n k = .ok () ↔ 0 < n ∧ 0 < k ∧ n + k ≤ 255 := by
  unfold checkRs maxRsSymbols
  split_ifs <;> simp <;> omega

/-! ### The assembler -/

/-- The stream after terminator and alignment: its bits, and that it is byte aligned (R125 to R127). -/
theorem Work.streamSegment_bs (g : Segment) (wk : Work) :
    (wk.streamSegment g).bs =
      g.mi ++ g.cci ++ g.data ++ fieldBits 0 4 ++
        List.replicate ((8 - (segmentLength g + 4) % 8) % 8) false ∧
      (wk.streamSegment g).bs.length = segmentLength g + 4 + (8 - (segmentLength g + 4) % 8) % 8 := by
  constructor
  · simp [Work.streamSegment, appendBits_eq, segmentLength, Nat.add_assoc]
  · simp [Work.streamSegment, segmentLength, Nat.add_assoc]

/-- One pass of the pad sequencer adds one codeword (R129). -/
theorem Work.padOne_length (wk : Work) : wk.padOne.cwbuf.length = wk.cwbuf.length + 1 := by
  unfold Work.padOne
  split <;> simp

/-- A successful assembly has exactly the capacity in bytes (R125). -/
theorem Work.assemble_length {g : Segment} {l : ECLevel} {wk done : Work} (h : wk.assemble g l = .ok done) :
    done.cwbuf.length = capacity l := by
  unfold Work.assemble at h
  dsimp only at h
  split_ifs at h with hc
  cases h
  rw [iterate_counts (view := fun w : Work => w.cwbuf.length) Work.padOne_length]
  simp only [codewords_length]
  omega

end Sys2Proof.Machine
end

