-- ==== Sys2Proof/Laws/PerInstr.lean ====
section
/-! SUPPORT. The family of statements made per instruction: decoding the command word of an operation gives the
operation back (R50, R55). -/

namespace Sys2Proof.Laws

variable (b a : Byte) (level : BitVec 2) (mode op : BitVec 4)

theorem commandWord_bit (i : Nat) : (commandWord b a level mode op).getLsbD i =
    if i < 4 then op.getLsbD i else if i < 8 then mode.getLsbD (i - 4) else if i < 10 then level.getLsbD (i - 8)
    else if i < 16 then false else if i < 24 then a.getLsbD (i - 16) else b.getLsbD (i - 24) := by
  simp only [commandWord, BitVec.getLsbD_append, BitVec.getLsbD_zero]
  split_ifs <;> first | omega | rfl

theorem opField_commandWord : opField (commandWord b a level mode op) = op := by
  ext i hi
  rw [← BitVec.getLsbD_eq_getElem, ← BitVec.getLsbD_eq_getElem, opField, BitVec.getLsbD_extractLsb', commandWord_bit]
  simp [hi]

theorem modeField_commandWord : modeField (commandWord b a level mode op) = mode := by
  ext i hi
  rw [← BitVec.getLsbD_eq_getElem, ← BitVec.getLsbD_eq_getElem, modeField, BitVec.getLsbD_extractLsb', commandWord_bit]
  simp [hi, show ¬ (4 + i < 4) by omega, show 4 + i < 8 by omega]

theorem levelField_commandWord : levelField (commandWord b a level mode op) = level := by
  ext i hi
  rw [← BitVec.getLsbD_eq_getElem, ← BitVec.getLsbD_eq_getElem, levelField, BitVec.getLsbD_extractLsb', commandWord_bit]
  simp [hi, show ¬ (8 + i < 4) by omega, show ¬ (8 + i < 8) by omega, show 8 + i < 10 by omega]

theorem rsvField_commandWord : rsvField (commandWord b a level mode op) = 0#6 := by
  ext i hi
  rw [← BitVec.getLsbD_eq_getElem, ← BitVec.getLsbD_eq_getElem, rsvField, BitVec.getLsbD_extractLsb', commandWord_bit]
  simp [show ¬ (10 + i < 4) by omega, show ¬ (10 + i < 8) by omega, show ¬ (10 + i < 10) by omega,
    show 10 + i < 16 by omega]

theorem aField_commandWord : aField (commandWord b a level mode op) = a := by
  ext i hi
  rw [← BitVec.getLsbD_eq_getElem, ← BitVec.getLsbD_eq_getElem, aField, BitVec.getLsbD_extractLsb', commandWord_bit]
  simp [hi, show ¬ (16 + i < 4) by omega, show ¬ (16 + i < 8) by omega, show ¬ (16 + i < 10) by omega,
    show ¬ (16 + i < 16) by omega, show 16 + i < 24 by omega]

theorem bField_commandWord : bField (commandWord b a level mode op) = b := by
  ext i hi
  rw [← BitVec.getLsbD_eq_getElem, ← BitVec.getLsbD_eq_getElem, bField, BitVec.getLsbD_extractLsb', commandWord_bit]
  simp [hi, show ¬ (24 + i < 4) by omega, show ¬ (24 + i < 8) by omega, show ¬ (24 + i < 10) by omega,
    show ¬ (24 + i < 16) by omega, show ¬ (24 + i < 24) by omega]

theorem modeOfCode_modeInd (m : Mode) : modeOfCode (Machine.modeInd m) = some m := by cases m <;> decide

theorem levelOfCode_levelCode (l : ECLevel) : levelOfCode (levelCode l) = l := by cases l <;> decide

/-- Decoding the command word of an operation gives the operation back. -/
def RoundTrip.Statement (i : Instr) : Prop := decode (encode i) = .ok i

namespace RoundTrip

theorem gfadd (a b : Byte) : Statement (.gfadd a b) := by
  simp [Statement, encode, decode, whenUnusedZero, rsvField_commandWord, opField_commandWord, modeField_commandWord,
    levelField_commandWord, aField_commandWord, bField_commandWord]

theorem gfmul (a b : Byte) : Statement (.gfmul a b) := by
  simp [Statement, encode, decode, whenUnusedZero, rsvField_commandWord, opField_commandWord, modeField_commandWord,
    levelField_commandWord, aField_commandWord, bField_commandWord]

theorem genpoly (k : Byte) : Statement (.genpoly k) := by
  simp [Statement, encode, decode, whenUnusedZero, rsvField_commandWord, opField_commandWord, modeField_commandWord,
    levelField_commandWord, aField_commandWord, bField_commandWord]

theorem rsenc (k : Byte) : Statement (.rsenc k) := by
  simp [Statement, encode, decode, whenUnusedZero, rsvField_commandWord, opField_commandWord, modeField_commandWord,
    levelField_commandWord, aField_commandWord, bField_commandWord]

theorem classify : Statement .classify := by
  simp [Statement, encode, decode, whenUnusedZero, rsvField_commandWord, opField_commandWord, modeField_commandWord,
    levelField_commandWord, aField_commandWord, bField_commandWord]

theorem segenc (m : Mode) (l : ECLevel) : Statement (.segenc m l) := by
  simp [Statement, encode, decode, whenUnusedZero, rsvField_commandWord, opField_commandWord, modeField_commandWord,
    levelField_commandWord, aField_commandWord, bField_commandWord, modeOfCode_modeInd, levelOfCode_levelCode]

theorem assemble (l : ECLevel) : Statement (.assemble l) := by
  simp [Statement, encode, decode, whenUnusedZero, rsvField_commandWord, opField_commandWord, modeField_commandWord,
    levelField_commandWord, aField_commandWord, bField_commandWord, levelOfCode_levelCode]

theorem encsym (l : ECLevel) : Statement (.encsym l) := by
  simp [Statement, encode, decode, whenUnusedZero, rsvField_commandWord, opField_commandWord, modeField_commandWord,
    levelField_commandWord, aField_commandWord, bField_commandWord, levelOfCode_levelCode]

end RoundTrip

end Sys2Proof.Laws
end

