-- ==== Sys2Proof/Tests/Slice0.lean ====
section
/-! SUPPORT. The model's own tests. Expected values are the spec's: `95_test_vectors.md` (V1 to V7, P1 to P4) and the
examples of the rules; each names its source. Every operation is tested on a block whose working registers hold
leftovers, which no operation may read (R21). -/

namespace Sys2Proof.Tests

open Sys2Proof Sys2Proof.Machine Sys2Proof.Safety

/-- Working state left over from nowhere. -/
def leftovers : Work :=
  { bs := [true], cwbuf := [7#8], g := ⟨9#8, [9#8]⟩, w := [5#8], prod := ⟨3#8, []⟩, mulI := 4, mulJ := 3, factor := 2
    power := 9#8, pos := 5, tap := 6, lead := 7#8, group := 3, padPhase := .pad1Next }

/-- A block with leftovers and a request in flight that carries `o`. -/
def asked (o : SeqOperand) : State :=
  asking { State.reset with work := leftovers } o

/-! ### Well-formed requests: one ill-formed request for each kind of operand -/

theorem test_gfadd_with_text_refused : (Instr.gfadd 1#8 2#8).wellFormedWith (.text []) = false := by decide
theorem test_rsenc_without_data_refused : (Instr.rsenc 2#8).wellFormedWith .none = false := by decide
theorem test_classify_with_data_refused : Instr.classify.wellFormedWith (.data []) = false := by decide
theorem test_assemble_with_text_refused : (Instr.assemble .L).wellFormedWith (.text []) = false := by decide
theorem test_encsym_with_text_accepted : (Instr.encsym .L).wellFormedWith (.text []) = true := by decide
theorem test_exec_refuses_ill_formed : exec (.rsenc 2#8) (asked .none) = .refused (.wrongOperand .data) := rfl

/-! ### Command words written out field by field (R50: B, A or K, RSV, LEVEL, MODE, OP) -/

-- P1 step 1: 0x02010001.
theorem test_decode_gfmul :
    decode 0b00000010_00000001_000000_00_0000_0001#32 = .ok (.gfmul 0x01#8 0x02#8) := by decide
-- P4 step 7: 0xCA530000.
theorem test_decode_gfadd :
    decode 0b11001010_01010011_000000_00_0000_0000#32 = .ok (.gfadd 0x53#8 0xCA#8) := by decide
-- P2 step 1: 0x000A0002.
theorem test_decode_genpoly :
    decode 0b00000000_00001010_000000_00_0000_0010#32 = .ok (.genpoly 10#8) := by decide
-- P3 step 4: 0x00140003.
theorem test_decode_rsenc :
    decode 0b00000000_00010100_000000_00_0000_0011#32 = .ok (.rsenc 20#8) := by decide
-- P3 step 1: 0x00000004.
theorem test_decode_classify : decode 0b00000000_00000000_000000_00_0000_0100#32 = .ok .classify := by decide
-- R50 to R52 by hand: level Q is 10, mode Byte is 0100.
theorem test_decode_segenc :
    decode 0b00000000_00000000_000000_10_0100_0101#32 = .ok (.segenc .byte .Q) := by decide
-- P4 step 4: 0x00000085.
theorem test_decode_segenc_kanji : decode 0x00000085#32 = .ok (.segenc .kanji .L) := by decide
-- R50, R52 by hand: level M is 01.
theorem test_decode_assemble : decode 0b00000000_00000000_000000_01_0000_0110#32 = .ok (.assemble .M) := by decide
-- R50, R52 by hand: level H is 11.
theorem test_decode_encsym : decode 0b00000000_00000000_000000_11_0000_0111#32 = .ok (.encsym .H) := by decide
-- R56 (a), P4 step 8.
theorem test_decode_reserved_op : decode 0x00000009#32 = .error .reservedOp := by decide
-- R56 (b).
theorem test_decode_reserved_bits : decode 0x00000400#32 = .error .reservedBits := by decide
-- R56 (c): GENPOLY with a non-zero B field.
theorem test_decode_unused_field : decode 0x010A0002#32 = .error .unusedField := by decide
-- R56 (d): the MODE field 0000 names no mode.
theorem test_decode_not_a_mode : decode 0x00000005#32 = .error .notAMode := by decide
-- P4 step 4, encoded.
theorem test_encode_segenc : encode (.segenc .kanji .L) = 0x00000085#32 := by decide

/-! ### One operation each -/

-- V1: no carry.
theorem test_gfadd_no_carry :
    answer (exec (.gfadd 0xFF#8 0x01#8) (asked .none)) = some (.done (.byte 0xFE#8)) := by decide
-- V1: 8F under 0x11D, 01 under the rejected 0x11B.
theorem test_gfmul_constant :
    answer (exec (.gfmul 0x53#8 0xCA#8) (asked .none)) = some (.done (.byte 0x8F#8)) := by decide
-- V1: largest operands.
theorem test_gfmul_largest :
    answer (exec (.gfmul 0xFF#8 0xFF#8) (asked .none)) = some (.done (.byte 0xE2#8)) := by decide
-- V2.
theorem test_genpoly_three :
    answer (exec (.genpoly 3#8) (asked .none)) = some (.done (.generator ⟨0x08, [0x0E, 0x07, 0x01]⟩)) := by decide
-- V2.
theorem test_genpoly_zero :
    answer (exec (.genpoly 0#8) (asked .none)) = some (.raised .zeroEcCount) := by decide
-- V3: the trace of R90, 05 00 with a short tap loop (R163).
theorem test_rsenc_trace :
    answer (exec (.rsenc 2#8) (asked (.data [0x01, 0x00]))) =
      some (.done (.codewords [0x01, 0x00, 0x07, 0x06])) := by decide
set_option maxRecDepth 20000 in
-- V3, S3: with G read in the wrong direction the last ten are reversed (R164).
theorem test_rsenc_direction :
    answer (exec (.rsenc 10#8) (asked (.data [0x40]))) =
      some (.done (.codewords [0x40, 0x04, 0xCA, 0x14, 0xC2, 0x97, 0x1E, 0x5E, 0x11, 0x94, 0x0A])) := by decide
-- V4: `_` is in no alphabet, and `é` (U+00E9) alone does not make Kanji (R102).
theorem test_classify_byte :
    answer (exec .classify (asked (.text ['H', '_', Char.ofNat 0xE9]))) = some (.done (.mode .byte)) := by decide
-- V4: "any character" suffices; the last character is U+3053.
theorem test_classify_kanji :
    answer (exec .classify (asked (.text ['1', '2', '3', Char.ofNat 0x3053]))) = some (.done (.mode .kanji)) := by
  decide
-- V5: "12345", 123 in 10 bits then 45 in 7.
theorem test_segenc_numeric :
    answer (exec (.segenc .numeric .L) (asked (.text ['1', '2', '3', '4', '5']))) = some (.done (.segment
      { mode := .numeric, mi := [false, false, false, true]
        cci := [false, false, false, false, false, false, false, true, false, true]
        data := [false, false, false, true, true, true, true, false, true, true,
                 false, true, false, true, true, false, true] })) := by decide
-- V5: "12A" in Numeric mode; the first misfit stands at position 2.
theorem test_segenc_misfit :
    answer (exec (.segenc .numeric .L) (asked (.text ['1', '2', 'A']))) =
      some (.raised (.misfitCharacter 2)) := by decide
set_option maxRecDepth 20000 in
-- V6: all three parts empty at H: 00, then 35 pad bytes, the last EC.
theorem test_assemble_empty :
    answer (exec (.assemble .H) (asked (.seg ⟨.numeric, [], [], []⟩))) = some (.done (.codewords
      (0x00#8 :: 0xEC#8 :: (List.replicate 17 [0x11#8, 0xEC#8]).flatten))) := by decide
set_option maxRecDepth 20000 in
-- R128: a segment of 285 bits at H is one bit too long: 37 bytes after terminator and alignment.
theorem test_assemble_over_capacity :
    answer (exec (.assemble .H) (asked (.seg ⟨.numeric, [], [], List.replicate 285 true⟩))) =
      some (.raised (.overCapacity 37 36)) := by decide
-- P4 step 4's text through ENCSYM (R142).
theorem test_encsym_kanji :
    answer (exec (.encsym .L) (asked (.text [Char.ofNat 0x3053]))) = some (.raised .kanjiMode) := by decide
set_option maxRecDepth 20000 in
-- V7: "HELLO WORLD" at H with NEC = 10, the last ten codewords.
theorem test_encode_symbol_data :
    (encodeSymbolData 10 ['H', 'E', 'L', 'L', 'O', ' ', 'W', 'O', 'R', 'L', 'D'] .H leftovers).toOption.map
        (fun cw => cw.drop 36) =
      some [0x3C, 0xE7, 0xEF, 0x61, 0x23, 0x0B, 0x74, 0x39, 0x2F, 0xDB] := by decide

/-! ### Steps -/

-- P4 step 7 through the command word.
theorem test_step_gfadd :
    answer (step { State.reset with host := [.issue ⟨0xCA530000#32, .none⟩], work := leftovers }) =
      some (.done (.byte 0x99#8)) := by decide
-- P4 step 8.
theorem test_step_reserved :
    step { State.reset with host := [.issue ⟨0x00000009#32, .none⟩] } = .refused (.reservedCommand .reservedOp) := rfl
-- R160: a request issued while reset is asserted.
theorem test_step_in_reset :
    step { State.reset with host := [.issue ⟨0xCA530000#32, .none⟩], inReset := true } =
      .refused .requestDuringReset := rfl
-- R160: reset abandons a request in flight and leaves no response.
theorem test_step_reset :
    answer (step { asked .none with host := [.assertReset], response := some (.done (.byte 1#8)) }) = none := rfl
-- R160: an operation in progress when reset is asserted produces no response.
theorem test_step_abandoned :
    step { State.reset with host := [.issueThenReset ⟨0xCA530000#32, .none⟩], work := leftovers } =
      .next { State.reset with inReset := true } := rfl
-- The word of GENPOLY 10 placed for the next step runs (P2 step 1).
set_option maxRecDepth 20000 in
theorem test_fetch_word :
    answer (step (State.reset.withFetchWord 32 0x000A0002)) = some (.done (.generator
      ⟨0xC1, [0x9D, 0x71, 0x5F, 0x5E, 0xC7, 0x6F, 0x9F, 0xC2, 0xD8, 0x01]⟩)) := by decide

/-! ### Bytes of a text (V5: é is C3 A9) -/

theorem test_utf8_two_bytes : textBytes [Char.ofNat 0xE9] = [0xC3, 0xA9] := by decide

end Sys2Proof.Tests
end

