-- ==== Sys2Proof/Tests/Witnesses.lean ====
section
/-! SUPPORT. For every statement with hypotheses, a concrete state and operands that meet them all together, one for
each clause, at the boundary where a clause has one. -/

namespace Sys2Proof.Tests

open Sys2Proof Sys2Proof.Machine Sys2Proof.Safety

/-- A block whose host is about to issue one request. -/
def issuing (w : Word) (o : SeqOperand) : State :=
  { State.reset with host := [.issue ⟨w, o⟩], work := leftovers }

/-- `n` copies of a character. -/
def copies (n : Nat) (c : CodePoint) : Text := List.replicate n c

theorem copies_length (n : Nat) (c : CodePoint) : (copies n c).length = n := List.length_replicate

theorem asked_operand (o : SeqOperand) : (asked o).operand = o := rfl

/-! ### Command word and steps -/

theorem witness_EncodeOfDecodeIsTheWord : decode 0x00000085#32 = .ok (.segenc .kanji .L) := by decide

-- OP = 8 is the first reserved one.
theorem witness_ReservedWordsAreRefused_reserved :
    (issuing 0x8#32 .none).host = [.issue ⟨0x8#32, .none⟩] ∧ (issuing 0x8#32 .none).inReset = false ∧
      Reserved 0x8#32 := ⟨rfl, rfl, .inl (by decide)⟩

-- OP = 7 is the last that is not, with the largest LEVEL.
theorem witness_ReservedWordsAreRefused_legal :
    (issuing 0x307#32 (.text [])).host = [.issue ⟨0x307#32, .text []⟩] ∧
      (issuing 0x307#32 (.text [])).inReset = false ∧ ¬ Reserved 0x307#32 := by
  refine ⟨rfl, rfl, ?_⟩
  unfold Reserved
  decide

theorem witness_StepRunsTheDecodedOperation :
    (issuing 0xCA530000#32 .none).host = [.issue ⟨0xCA530000#32, .none⟩] ∧
      (issuing 0xCA530000#32 .none).inReset = false ∧
      decode 0xCA530000#32 = .ok (.gfadd 0x53#8 0xCA#8) := by decide

theorem witness_ResetBehaviour_assert :
    { asked .none with host := [.assertReset] }.host = [HostAction.assertReset] := rfl

theorem witness_ResetBehaviour_abandoned :
    { State.reset with host := [.issueThenReset ⟨0xCA530000#32, .none⟩] }.host =
        [HostAction.issueThenReset ⟨0xCA530000#32, .none⟩] ∧ State.reset.inReset = false ∧
      decode 0xCA530000#32 = .ok (.gfadd 0x53#8 0xCA#8) ∧
      (Instr.gfadd 0x53#8 0xCA#8).wellFormedWith .none = true := by decide

theorem witness_ResetBehaviour_issue :
    { issuing 0x4#32 (.text []) with inReset := true }.host = [.issue ⟨0x4#32, .text []⟩] ∧
      { issuing 0x4#32 (.text []) with inReset := true }.inReset = true := ⟨rfl, rfl⟩

theorem witness_ResetBehaviour_issueThenReset :
    { State.reset with host := [.issueThenReset ⟨0x4#32, .text []⟩], inReset := true }.host =
        [HostAction.issueThenReset ⟨0x4#32, .text []⟩] ∧
      { State.reset with host := [.issueThenReset ⟨0x4#32, .text []⟩], inReset := true }.inReset = true := ⟨rfl, rfl⟩

theorem witness_ResetBehaviour_release :
    { State.reset with host := [.releaseReset], inReset := true }.host = [HostAction.releaseReset] := rfl

theorem witness_ResetBehaviour_between : ∃ t u : State,
    step { State.reset with host := [.assertReset, .releaseReset, .issue ⟨0x4#32, .text []⟩] } = .next t ∧
      step t = .next u := ⟨_, _, rfl, rfl⟩

theorem witness_IdleStepChangesNothing : State.reset.host = [] := rfl

theorem witness_AnyOperationRunsFirstAfterReset :
    (Instr.assemble .H).wellFormedWith (.seg ⟨.kanji, [], [], []⟩) = true := by decide

theorem witness_EveryLegalRequestIsAnswered :
    (Instr.rsenc 1#8).wellFormedWith (asked (.data [1#8])).operand = true ∧
      (Instr.rsenc 1#8).wellFormedWith (asked (.text [])).operand = false := by decide

theorem witness_OperationFrame :
    exec (.gfadd 1#8 2#8) (asked .none) = .next ((asked .none).respond (.ok (.byte 3#8))) := rfl

theorem witness_ResultFieldExactlyWhenOk_done :
    exec .classify (asked (.text [])) = .next ((asked (.text [])).respond (.ok (.mode .numeric))) ∧
      ((asked (.text [])).respond (.ok (.mode .numeric))).response = some (.done (.mode .numeric)) := ⟨rfl, rfl⟩

theorem witness_ResultFieldExactlyWhenOk_raised :
    exec (.genpoly 0#8) (asked .none) = .next ((asked .none).respond (.error .zeroEcCount)) ∧
      ((asked .none).respond (.error .zeroEcCount)).response = some (.raised .zeroEcCount) := ⟨rfl, rfl⟩

theorem witness_StatusTable :
    exec (.rsenc 1#8) (asked (.data [])) = .next ((asked (.data [])).respond (.error .emptyData)) ∧
      ((asked (.data [])).respond (.error .emptyData)).response = some (.raised .emptyData) := ⟨rfl, rfl⟩

theorem witness_ResponseIsAFunctionOfTheRequest :
    (issuing 0x2#32 .none).host = [.issue ⟨0x2#32, .none⟩] ∧
      { State.reset with host := [.issue ⟨0x2#32, .none⟩, .assertReset] }.host =
        [.issue ⟨0x2#32, .none⟩, .assertReset] ∧
      (issuing 0x2#32 .none).inReset = false ∧ State.reset.inReset = false := ⟨rfl, rfl, rfl, rfl⟩

theorem witness_StepKeepsQuietState : ∃ t : State,
    Inv { State.reset with host := [.issue ⟨0xCA530000#32, .none⟩] } ∧
      step { State.reset with host := [.issue ⟨0xCA530000#32, .none⟩] } = .next t :=
  ⟨_, ⟨rfl, rfl, fun h => rfl, fun r h => by cases h⟩, rfl⟩

/-! ### Field, generator, encoder -/

theorem witness_GfaddAnswersTheExclusiveOr : (asked .none).operand = .none := rfl

theorem witness_GfmulIsTheProductModuloPoly :
    (asked .none).operand = .none ∧ Represents 2#8 Polynomial.X ∧ Represents 0#8 0 := by
  refine ⟨rfl, fun i => ?_, fun i => by simp⟩
  rw [Polynomial.coeff_X]
  by_cases h : i < 8
  · interval_cases i <;> decide
  · rw [if_neg (by omega), BitVec.getLsbD_of_ge _ _ (by omega)]
    rfl

theorem witness_FieldLaws : gfMul 5#8 0#8 = 0#8 := by decide

theorem witness_DoublingAndInverses : 0x80#8 ≠ 0#8 := by decide

theorem witness_PowersOfTheGeneratorElement : (254 : Nat) < 255 ∧ gfExp 0 = gfExp 0 ∧ (255 : Nat) < 256 := by decide

theorem witness_GenpolyBuildsTheGenerator : (asked .none).operand = .none ∧ 0#8 = 0#8 ∧ 255#8 ≠ 0#8 := by decide

theorem witness_GeneratorIsMonicWithTheRoots : 255#8 ≠ 0#8 ∧ (asked .none).operand = .none := by decide

theorem witness_GeneratorOfTen : (asked .none).operand = .none := rfl

theorem witness_RsencChecksItsPreconditions_empty :
    (asked (.data [])).operand = .data [] := rfl

theorem witness_RsencChecksItsPreconditions_zero :
    (asked (.data [0x40#8])).operand = .data [0x40#8] ∧ ([0x40#8] : ByteSeq) ≠ [] := by decide

-- 1 + 255 = 256 is one too many.
theorem witness_RsencChecksItsPreconditions_overflow :
    (asked (.data [1#8])).operand = .data [1#8] ∧ ([1#8] : ByteSeq) ≠ [] ∧ 255#8 ≠ 0#8 ∧
      255 < ([1#8] : ByteSeq).length + (255#8).toNat := by decide

-- 1 + 254 = 255 is the ceiling; the completing clause of RsencChecksItsPreconditions is met too.
theorem witness_RsencAnswersASystematicCodeword :
    (asked (.data [1#8])).operand = .data [1#8] ∧ ([1#8] : ByteSeq) ≠ [] ∧ 254#8 ≠ 0#8 ∧
      ([1#8] : ByteSeq).length + (254#8).toNat ≤ 255 := by decide

theorem witness_RsencIsTheLongDivision :
    (asked (.data [0#8, 0#8])).operand = .data [0#8, 0#8] ∧ ([0#8, 0#8] : ByteSeq) ≠ [] ∧ 253#8 ≠ 0#8 ∧
      ([0#8, 0#8] : ByteSeq).length + (253#8).toNat ≤ 255 := by decide

theorem witness_RsencIsLinear :
    ([1#8, 0#8] : ByteSeq).length = ([0#8, 1#8] : ByteSeq).length ∧
    answer (exec (.rsenc 2#8) (asking State.reset (.data [1#8, 0#8]))) =
      some (.done (.codewords [0x01, 0x00, 0x07, 0x06])) ∧
    answer (exec (.rsenc 2#8) (asking State.reset (.data [0#8, 1#8]))) =
      some (.done (.codewords [0x00, 0x01, 0x03, 0x02])) := by decide

theorem witness_SingleEcCodewordIsTheExclusiveOr :
    (asked (.data (List.replicate 254 9#8))).operand = .data (List.replicate 254 9#8) ∧
      List.replicate 254 9#8 ≠ [] ∧ (List.replicate 254 9#8).length ≤ 254 :=
  ⟨asked_operand _, List.ne_nil_of_length_pos (by rw [List.length_replicate]; decide), List.length_replicate.le⟩

/-! ### Classifier and segment encoder -/

/-- A check of every character of a listed text, as one that can be run. -/
theorem each {p : CodePoint → Prop} [DecidablePred p] {u : Text} (h : u.all (fun c => decide (p c)) = true) :
    ∀ c ∈ u, p c :=
  fun c hc => of_decide_eq_true (List.all_eq_true.1 h c hc)

/-- A listed text with one character that fails a check. -/
theorem notEach {p : CodePoint → Prop} [DecidablePred p] {u : Text} (h : u.any (fun c => !decide (p c)) = true) :
    ¬ (∀ c ∈ u, p c) := by
  obtain ⟨c, hc, hp⟩ := List.any_eq_true.1 h
  exact fun all => absurd (all c hc) (by simpa using hp)

set_option maxRecDepth 40000 in
theorem witness_ClassifyFollowsThePrecedence_numeric :
    (asked (.text ['0', '9'])).operand = .text ['0', '9'] ∧ ∀ c ∈ ['0', '9'], IsDigit c :=
  ⟨asked_operand _, each (by decide)⟩

set_option maxRecDepth 40000 in
theorem witness_ClassifyFollowsThePrecedence_alphanumeric :
    (asked (.text ['0', ':'])).operand = .text ['0', ':'] ∧ (∀ c ∈ ['0', ':'], IsAlnum c) ∧
      ¬ (∀ c ∈ ['0', ':'], IsDigit c) :=
  ⟨asked_operand _, each (by decide), notEach (by decide)⟩

set_option maxRecDepth 40000 in
theorem witness_ClassifyFollowsThePrecedence_kanji :
    (asked (.text ['A', Char.ofNat 0x306F])).operand = .text ['A', Char.ofNat 0x306F] ∧
      ¬ (∀ c ∈ ['A', Char.ofNat 0x306F], IsAlnum c) ∧
      ∃ c ∈ ['A', Char.ofNat 0x306F], isKanjiClass c = true := by
  refine ⟨asked_operand _, notEach (by decide), Char.ofNat 0x306F, by simp, by decide⟩

set_option maxRecDepth 40000 in
theorem witness_ClassifyFollowsThePrecedence_byte :
    (asked (.text ['A', Char.ofNat 0x7F])).operand = .text ['A', Char.ofNat 0x7F] ∧
      ¬ (∀ c ∈ ['A', Char.ofNat 0x7F], IsAlnum c) ∧
      ¬ (∃ c ∈ ['A', Char.ofNat 0x7F], isKanjiClass c = true) :=
  ⟨asked_operand _, notEach (by decide), fun ⟨c, hc, hk⟩ => by
    have := List.any_eq_true.2 ⟨c, hc, hk⟩; revert this; decide⟩

set_option maxRecDepth 40000 in
theorem witness_AlphabetIndexIsTheTable : alnumIndex ':' = some 44 := by decide

set_option maxRecDepth 40000 in
theorem witness_KanjiClassConstraints :
    (Char.ofNat 0x7F).toNat < 0x80 ∧ (Char.ofNat 0x3053).toNat ∈ [0x3053, 0x3093, 0x306B, 0x3061, 0x306F] ∧
      (asked (.text [Char.ofNat 0xE9])).operand = .text [Char.ofNat 0xE9] := by decide

theorem witness_AppendBitsIsMostSignificantFirst : (999 : Nat) < 2 ^ 10 := by decide

-- 1024 digits are one too many.
theorem witness_SegencOrderOfDetection_count :
    (asked (.text (copies 1024 '1'))).operand = .text (copies 1024 '1') ∧
      1024 = (if Mode.numeric = .byte then (textBytes (copies 1024 '1')).length else (copies 1024 '1').length) ∧
      2 ^ countBits .numeric ≤ 1024 := 
  ⟨asked_operand _, by rw [copies_length, if_neg (by decide)], by decide⟩

-- 255 characters still fit the count of Kanji mode.
theorem witness_SegencOrderOfDetection_kanji :
    (asked (.text (copies 255 'A'))).operand = .text (copies 255 'A') ∧
      255 = (if Mode.kanji = .byte then (textBytes (copies 255 'A')).length else (copies 255 'A').length) ∧
      255 < 2 ^ countBits .kanji := 
  ⟨asked_operand _, by rw [copies_length, if_neg (by decide)], by decide⟩

set_option maxRecDepth 40000 in
theorem witness_SegencOrderOfDetection_misfit_numeric :
    (asked (.text ['1', '2', 'A'])).operand = .text ['1', '2', 'A'] ∧ 3 < 2 ^ countBits .numeric ∧
      ['1', '2', 'A'] = ['1', '2'] ++ 'A' :: [] ∧ (∀ d ∈ ['1', '2'], IsDigit d) ∧ ¬ IsDigit 'A' :=
  ⟨asked_operand _, by decide, rfl, each (by decide), by decide⟩

set_option maxRecDepth 40000 in
theorem witness_SegencOrderOfDetection_misfit_alphanumeric :
    (asked (.text ['a', 'b'])).operand = .text ['a', 'b'] ∧ 2 < 2 ^ countBits .alphanumeric ∧
      ['a', 'b'] = [] ++ 'a' :: ['b'] ∧ ¬ IsAlnum 'a' := by decide

set_option maxRecDepth 40000 in
theorem witness_SegencOrderOfDetection_fits :
    (asked (.text ['1', 'A'])).operand = .text ['1', 'A'] ∧ 2 < 2 ^ countBits .alphanumeric ∧
      ∀ c ∈ ['1', 'A'], IsAlnum c :=
  ⟨asked_operand _, by decide, each (by decide)⟩

theorem witness_SegencNumericSegment :
    (asked (.text (copies 1023 '9'))).operand = .text (copies 1023 '9') ∧ (copies 1023 '9').length ≤ 1023 ∧
      ∀ c ∈ copies 1023 '9', IsDigit c :=
  ⟨asked_operand _, (copies_length _ _).le, fun c hc => by rw [List.eq_of_mem_replicate hc]; decide⟩

theorem witness_SegencAlphanumericSegment :
    (asked (.text (copies 511 ':'))).operand = .text (copies 511 ':') ∧ (copies 511 ':').length ≤ 511 ∧
      ∀ c ∈ copies 511 ':', IsAlnum c :=
  ⟨asked_operand _, (copies_length _ _).le, fun c hc => by rw [List.eq_of_mem_replicate hc]; decide⟩

set_option maxRecDepth 40000 in
theorem witness_SegencByteSegment :
    (asked (.text ['a', Char.ofNat 0xE9])).operand = .text ['a', Char.ofNat 0xE9] ∧
      (textBytes ['a', Char.ofNat 0xE9]).length ≤ 255 := by decide

theorem witness_SegmentWidths :
    answer (exec (.segenc .numeric .H) (asking State.reset (.text ['0']))) = some (.done (.segment
      ⟨.numeric, fieldBits 1 4, fieldBits 1 10, [false, false, false, false]⟩)) := by decide

theorem witness_SegencIgnoresTheLevel : (asked (.text ['0'])).operand = (asking State.reset (.text ['0'])).operand :=
  rfl

theorem witness_SegmentDeterminesTheText :
    answer (exec (.segenc .alphanumeric .L) (asking State.reset (.text [':', ':']))) = some (.done (.segment
      ⟨.alphanumeric, fieldBits 2 4, fieldBits 2 9, fieldBits 2024 11⟩)) := by decide

/-! ### Assembler and pipeline -/

/-- A segment of `n` bits. -/
def segmentOf (n : Nat) : Segment := ⟨.byte, [], [], List.replicate n true⟩

theorem segmentOf_length (n : Nat) : segmentLength (segmentOf n) = n := by
  simp only [segmentLength, segmentOf, List.length_nil, List.length_replicate, Nat.zero_add]

-- 284 bits are the most that fit at H, 285 one too many; 284 also meets AssembleLayout.
theorem witness_AssembleCapacityCheck :
    (asked (.seg (segmentOf 284))).operand = .seg (segmentOf 284) ∧ segmentLength (segmentOf 284) + 4 ≤ 8 * capacity .H ∧
    (asked (.seg (segmentOf 285))).operand = .seg (segmentOf 285) ∧
      8 * capacity .H < segmentLength (segmentOf 285) + 4 := by
  refine ⟨asked_operand _, ?_, asked_operand _, ?_⟩ <;> (rw [segmentOf_length]; decide)

theorem witness_AssembleLayout :
    (asked (.seg (segmentOf 277))).operand = .seg (segmentOf 277) ∧
      segmentLength (segmentOf 277) + 4 ≤ 8 * capacity .H ∧ (segmentLength (segmentOf 277) + 4 + 7) % 8 = 0 := by
  simp only [asked_operand, segmentOf_length, capacity]
  decide

theorem witness_CodewordViewKeepsTheBits : (List.replicate 16 true).length % 8 = 0 := by decide

set_option maxRecDepth 40000 in
-- A text whose SEGENC raises: 256 times 0x7F in Byte mode.
theorem witness_EncsymIsThePipeline_segenc_raises :
    answer (exec .classify (asking State.reset (.text (copies 256 (Char.ofNat 0x7F))))) = some (.done (.mode .byte)) ∧
    answer (exec (.segenc .byte .L) (asking State.reset (.text (copies 256 (Char.ofNat 0x7F))))) =
      some (.raised (.countTooLarge 256)) := by decide

set_option maxRecDepth 40000 in
-- 35 bytes at H are one more than rule R133's table gives.
theorem witness_EncsymIsThePipeline_assemble_raises : ∃ g,
    answer (exec .classify (asking State.reset (.text (copies 35 (Char.ofNat 0x7F))))) = some (.done (.mode .byte)) ∧
    answer (exec (.segenc .byte .H) (asking State.reset (.text (copies 35 (Char.ofNat 0x7F))))) =
      some (.done (.segment g)) ∧
    answer (exec (.assemble .H) (asking State.reset (.seg g))) = some (.raised (.overCapacity 37 36)) :=
  ⟨⟨.byte, fieldBits 4 4, fieldBits 35 8, bitsOf (List.replicate 35 0x7F#8)⟩, by decide, by decide, by decide⟩

/-- The segment of the empty text (V5). -/
def emptySegment : Segment := ⟨.numeric, fieldBits 1 4, fieldBits 0 10, []⟩

set_option maxRecDepth 40000 in
theorem witness_EncsymIsThePipeline_completes : ∃ d,
    answer (exec .classify (asking State.reset (.text []))) = some (.done (.mode .numeric)) ∧
    answer (exec (.segenc .numeric .H) (asking State.reset (.text []))) = some (.done (.segment emptySegment)) ∧
    answer (exec (.assemble .H) (asking State.reset (.seg emptySegment))) = some (.done (.codewords d)) :=
  ⟨[0x10, 0x00, 0x00] ++ (List.replicate 16 [0xEC#8, 0x11#8]).flatten ++ [0xEC#8], by decide, by decide, by decide⟩

set_option maxRecDepth 40000 in
-- The table's entries for digits at H: 81 is the most, 82 one too many.
theorem witness_LongestInputs :
    classify (copies 81 '9') ≠ .kanji ∧ charCount (copies 81 '9') (classify (copies 81 '9')) ≤
      longest (classify (copies 81 '9')) .H ∧
    classify (copies 82 '9') ≠ .kanji ∧ longest (classify (copies 82 '9')) .H <
      charCount (copies 82 '9') (classify (copies 82 '9')) := by decide

/-- Whatever the open parameter `NEC` is, `ENCSYM` of the empty text at H answers codewords. -/
theorem witness_EncsymAnswersACodeword : ∃ cw,
    answer (exec (.encsym .H) (asking State.reset (.text []))) = some (.done (.codewords cw)) := by
  have hn : nec .H = Config.necTable.h.val + 1 := rfl
  have hlt := Config.necTable.h.isLt
  cases ha : Work.discarded.assemble emptySegment .H with
  | error c =>
    have hok : (Work.discarded.assemble emptySegment .H).toBool = true := by decide
    rw [ha] at hok
    cases hok
  | ok asm =>
    have hl : asm.cwbuf.length = 36 := Work.assemble_length ha
    have hc : checkRs asm.cwbuf.length (nec .H) = .ok () := checkRs_ok.2 (by omega)
    have hs : encodeSegment [] (classify []) .H Work.discarded = .ok emptySegment := by rfl
    refine ⟨rsEncode asm.cwbuf (nec .H) asm, ?_⟩
    rw [answer_exec]
    simp only [State.asking_operand, State.asking_work, outcomeOf, Option.map_some, encsymResult, encodeSymbolData]
    simp only [State.reset, hs, ha, hc, responseOf]

theorem witness_EncsymNeverInvalidInput :
    answer (exec (.encsym .L) (asked (.text [Char.ofNat 0x3053]))) = some (.raised .kanjiMode) := by decide

set_option maxRecDepth 40000 in
-- 255 Kanji-class characters fit the count of 8 bits, 256 do not.
theorem witness_EncsymOfKanjiIsUnsupported :
    classify (copies 255 (Char.ofNat 0x3093)) = .kanji ∧ (copies 255 (Char.ofNat 0x3093)).length ≤ 255 ∧
    classify (copies 256 (Char.ofNat 0x3093)) = .kanji ∧ 255 < (copies 256 (Char.ofNat 0x3093)).length := by decide

end Sys2Proof.Tests
end

/-! The leading coefficient through `poly_mul` and `build_generator` (R80, R81): the generator register is monic
(R82). -/

namespace Sys2Proof

theorem Poly.coeff_setCoeff (p : Poly) (m n : Nat) (c : Byte) (h : n < p.size) :
    (p.setCoeff m c).coeff n = if m = n then c else p.coeff n := by
  simp only [Poly.coeff, Poly.coeffs_setCoeff, List.getD_eq_getElem?_getD, List.getElem?_set]
  by_cases hm : m = n
  · subst hm
    simp [h]
  · simp [hm]

theorem Poly.getLast?_coeffs (p : Poly) : p.coeffs.getLast? = some (p.coeff p.higher.length) := by
  rw [List.getLast?_eq_getElem?, Poly.coeff, List.getD_eq_getElem?_getD, Poly.coeffs_length, Poly.size,
    Nat.add_sub_cancel, List.getElem?_eq_getElem (by simp [Poly.size]), Option.getD_some]

theorem Poly.coeff_zeros (n i : Nat) : (Poly.zeros n).coeff i = 0#8 := by
  simp only [Poly.coeff, Poly.coeffs_zeros, List.getD_eq_getElem?_getD, List.getElem?_replicate]
  split_ifs <;> rfl

end Sys2Proof

namespace Sys2Proof.Machine

open Sys2Proof.Safety

/-- The first `m` terms of a row of `poly_mul` (R80): each coefficient from `mulI` to `mulI + m - 1` gets its term, the
others stay. -/
theorem Work.mulTerm_iterate (p q : Poly) (wk : Work) (m : Nat) :
    let row := (Work.mulTerm p q)^[m] { wk with mulJ := 0 }
    row.mulI = wk.mulI ∧ row.mulJ = m ∧ row.prod.size = wk.prod.size ∧
      ∀ n < wk.prod.size, row.prod.coeff n =
        if wk.mulI ≤ n ∧ n < wk.mulI + m then gfAdd (wk.prod.coeff n) (gfMul (p.coeff wk.mulI) (q.coeff (n - wk.mulI)))
        else wk.prod.coeff n := by
  induction m with
  | zero => exact ⟨rfl, rfl, rfl, fun n _ => (if_neg (by omega)).symm⟩
  | succ m ih =>
    obtain ⟨hi, hj, hs, hc⟩ := ih
    simp only [Function.iterate_succ_apply', Work.mulTerm, hi, hj, hs, Poly.size_setCoeff, true_and]
    intro n hn
    rw [Poly.coeff_setCoeff _ _ _ _ (hs ▸ hn), hc n hn]
    by_cases hm : wk.mulI + m = n
    · subst hm
      rw [hc _ hn, if_pos rfl, if_neg (by omega), if_pos (by omega), Nat.add_sub_cancel_left]
    · rw [if_neg hm]
      exact if_congr (by omega) rfl rfl

/-- One row of `poly_mul` (R80) adds `p[i] * q[n - i]` to each coefficient `n` it reaches. -/
theorem Work.mulRow_coeff (p q : Poly) (wk : Work) {n : Nat} (hn : n < wk.prod.size) :
    (wk.mulRow p q).prod.coeff n =
      if wk.mulI ≤ n ∧ n < wk.mulI + q.size then
        gfAdd (wk.prod.coeff n) (gfMul (p.coeff wk.mulI) (q.coeff (n - wk.mulI)))
      else wk.prod.coeff n := by
  obtain ⟨-, -, -, hcoeff⟩ := Work.mulTerm_iterate p q wk q.size
  exact hcoeff n hn

/-- Only the last row of `poly_mul` reaches the leading coefficient of the product. -/
theorem Work.mulRow_iterate_top (p q : Poly) (wk : Work) {m : Nat} (hm : m ≤ p.higher.length) :
    let rows := (Work.mulRow p q)^[m] { wk with prod := Poly.zeros (p.higher.length + q.higher.length), mulI := 0 }
    rows.mulI = m ∧ rows.prod.size = p.higher.length + q.higher.length + 1 ∧
      rows.prod.coeff (p.higher.length + q.higher.length) = 0#8 := by
  induction m with
  | zero => exact ⟨rfl, Poly.size_zeros _, Poly.coeff_zeros _ _⟩
  | succ m ih =>
    obtain ⟨hi, hs, hc⟩ := ih (by omega)
    rw [Function.iterate_succ_apply']
    obtain ⟨-, -, -, hsize, hnext⟩ := Work.mulRow_keeps p q
      ((Work.mulRow p q)^[m] { wk with prod := Poly.zeros (p.higher.length + q.higher.length), mulI := 0 })
    refine ⟨by rw [hnext, hi], by rw [hsize, hs], ?_⟩
    rw [Work.mulRow_coeff _ _ _ (by omega), if_neg (by rw [hi, Poly.size]; omega), hc]

/-- The leading coefficient of a product is the product of the leading coefficients (R80). -/
theorem Work.polyMul_coeff_top (p q : Poly) (wk : Work) :
    (wk.polyMul p q).prod.coeff (p.higher.length + q.higher.length) =
      gfMul (p.coeff p.higher.length) (q.coeff q.higher.length) := by
  obtain ⟨hi, hs, hc⟩ := Work.mulRow_iterate_top p q wk le_rfl
  rw [Work.polyMul, Poly.size, Function.iterate_succ_apply', Work.mulRow_coeff _ _ _ (by omega), hi, hc,
    if_pos (by rw [Poly.size]; omega), Nat.add_sub_cancel_left, gfAdd, BitVec.zero_xor]

theorem Work.buildGenerator_succ (k : Nat) (wk : Work) :
    wk.buildGenerator (k + 1) = (wk.buildGenerator k).nextFactor :=
  Function.iterate_succ_apply' _ _ _

/-- The generator register is monic after any number of factors (R82). -/
theorem Work.buildGenerator_monic (k : Nat) (wk : Work) : (wk.buildGenerator k).g.coeff k = 1#8 := by
  induction k with
  | zero => rfl
  | succ k ih =>
    have hdeg : (wk.buildGenerator k).g.higher.length = k :=
      Nat.succ.inj (Work.buildGenerator_counts k wk).2
    have htop := Work.polyMul_coeff_top (wk.buildGenerator k).g
      ⟨gfExp (wk.buildGenerator k).factor, [1#8]⟩
      { wk.buildGenerator k with power := gfExp (wk.buildGenerator k).factor }
    rw [hdeg, ih] at htop
    rw [Work.buildGenerator_succ, (Work.nextFactor_g _).1]
    exact htop.trans (by decide : gfMul 1#8 1#8 = 1#8)

end Sys2Proof.Machine

/-! Every way an operation can end (R11, R14, R140 to R142), said once per stage and then per operation, with what its
result or its cause holds. Legal responses, the status table and the result fields are read off it. -/

namespace Sys2Proof.Machine

open Sys2Proof.Safety

/-! ### The stages -/

/-- `build_generator` ends with a legal generator (R82). -/
theorem Work.buildGenerator_legal {k : Nat} (hk : 0 < k) (hmax : k ≤ 255) (wk : Work) :
    LegalResult (.generator (wk.buildGenerator k).g) := by
  have hsize := (Work.buildGenerator_counts k wk).2
  refine ⟨by omega, by omega, ?_⟩
  rw [Poly.getLast?_coeffs, Nat.succ.inj hsize, Work.buildGenerator_monic]

/-- A violated precondition of the Reed-Solomon encoder is `InvalidInput` (R91, R140). -/
theorem checkRs_error {n k : Nat} {c : Cause} (h : checkRs n k = .error c) :
    c.status = .invalidInput ∧ LegalCause c := by
  unfold checkRs at h
  split_ifs at h with hn hk hmax <;> cases h
  · exact ⟨rfl, trivial⟩
  · exact ⟨rfl, trivial⟩
  · exact ⟨rfl, hmax⟩

/-- The result of a Reed-Solomon encoding whose preconditions hold is legal (R91). -/
theorem rsEncode_legal {d : ByteSeq} {k : Nat} (h : checkRs d.length k = .ok ()) (wk : Work) :
    LegalResult (.codewords (rsEncode d k wk)) := by
  obtain ⟨hd, hk, hmax⟩ := checkRs_ok.1 h
  simp only [LegalResult, (rsEncode_shape d k wk).1]
  omega

theorem two_pow_countBits (m : Mode) : 2 ^ 8 ≤ 2 ^ countBits m ∧ 2 ^ countBits m ≤ 2 ^ 10 := by
  cases m <;> decide

/-- A misfit character stands within the text (R117). -/
theorem checkFits_error {fits : CodePoint → Bool} {t : Text} {c : Cause} (h : checkFits fits t = .error c) :
    ∃ p < t.length, c = .misfitCharacter p := by
  unfold checkFits at h
  split at h <;> cases h
  next p hp => exact ⟨p, (List.findIdx?_eq_some_iff_findIdx_eq.1 hp).1, rfl⟩

/-- The data stage fails for Kanji mode or for a character of the text (R116, R117). -/
theorem Work.packData_error {t : Text} {m : Mode} {wk : Work} {c : Cause} (h : wk.packData t m = .error c) :
    c = .kanjiMode ∨ ∃ p < charCount t m, c = .misfitCharacter p := by
  unfold Work.packData at h
  split at h
  · split at h <;> cases h
    next hc => exact .inr (checkFits_error hc)
  · split at h <;> cases h
    next hc => exact .inr (checkFits_error hc)
  · cases h
  · cases h
    exact .inl rfl

/-- The cause of a segment-encoder error is legal: a count too large for its field, or, once the count fits, one of the
data stage (R140, R141). -/
theorem encodeSegment_error {t : Text} {m : Mode} {l : ECLevel} {wk : Work} {c : Cause}
    (h : encodeSegment t m l wk = .error c) : LegalCause c := by
  obtain ⟨hlow, hhigh⟩ := two_pow_countBits m
  unfold encodeSegment at h
  dsimp only at h
  split_ifs at h with hn
  · cases h
    exact hlow.trans hn
  · split at h <;> cases h
    next hc =>
      obtain rfl | ⟨p, hp, rfl⟩ := Work.packData_error hc
      · exact trivial
      · exact (hp.trans (not_le.1 hn)).trans_le hhigh

/-- A segment the encoder answers is legal (R57, R110, R116). -/
theorem encodeSegment_legal {t : Text} {m : Mode} {l : ECLevel} {wk : Work} {g : Segment}
    (h : encodeSegment t m l wk = .ok g) : LegalResult (.segment g) := by
  unfold encodeSegment at h
  dsimp only at h
  split_ifs at h
  split at h <;> cases h
  next packed hp =>
    refine ⟨?_, by simp [appendBits_eq, modeIndBits], by simp, ?_⟩
    · rintro rfl
      cases hp
    · exact (valueOf_lt _).trans_eq (by simp)

/-- The assembler fails only when the segment exceeds the capacity (R128, R141). -/
theorem Work.assemble_error {g : Segment} {l : ECLevel} {wk : Work} {c : Cause} (h : wk.assemble g l = .error c) :
    ∃ nb > capacity l, c = .overCapacity nb (capacity l) := by
  unfold Work.assemble at h
  dsimp only at h
  split_ifs at h with hc
  cases h
  exact ⟨_, hc, rfl⟩

theorem overCapacity_legal {l : ECLevel} {nb : Nat} (h : capacity l < nb) :
    LegalCause (.overCapacity nb (capacity l)) :=
  ⟨h, by cases l <;> decide⟩

/-- The pipeline fails with the legal cause of one of its stages (R132). -/
theorem encodeSymbolData_error {k : Nat} {t : Text} {l : ECLevel} {wk : Work} {c : Cause}
    (h : encodeSymbolData k t l wk = .error c) : LegalCause c := by
  unfold encodeSymbolData at h
  split at h
  · cases h
    next hc => exact encodeSegment_error hc
  split at h
  · cases h
    next hc =>
      obtain ⟨nb, hnb, rfl⟩ := Work.assemble_error hc
      exact overCapacity_legal hnb
  split at h <;> cases h
  next hc => exact (checkRs_error hc).2

/-- The pipeline ends with a legal codeword sequence of `CAPACITY + K` codewords (R130). -/
theorem encodeSymbolData_ok {k : Nat} {t : Text} {l : ECLevel} {wk : Work} {cw : ByteSeq}
    (h : encodeSymbolData k t l wk = .ok cw) : cw.length = capacity l + k ∧ LegalResult (.codewords cw) := by
  unfold encodeSymbolData at h
  split at h
  · cases h
  split at h
  · cases h
  next asm hasm =>
    split at h <;> cases h
    next hc => exact ⟨by rw [(rsEncode_shape _ _ _).1, Work.assemble_length hasm], rsEncode_legal hc _⟩

/-! ### The operations -/

/-- Every way an operation with its sequence operand can end. -/
inductive Ending : Instr → SeqOperand → Except Cause Result → Prop
  | sum (a b : Byte) : Ending (.gfadd a b) .none (.ok (.byte (gfAdd a b)))
  | product (a b : Byte) : Ending (.gfmul a b) .none (.ok (.byte (gfMul a b)))
  | noFactors {k : Byte} (hk : k.toNat = 0) : Ending (.genpoly k) .none (.error .zeroEcCount)
  | generator {k : Byte} {g : Poly} (hsize : g.size = k.toNat + 1) (hlegal : LegalResult (.generator g)) :
      Ending (.genpoly k) .none (.ok (.generator g))
  | notEncoded {d : ByteSeq} {k : Byte} {c : Cause} (hstatus : c.status = .invalidInput) (hlegal : LegalCause c) :
      Ending (.rsenc k) (.data d) (.error c)
  | encoded {d cw : ByteSeq} {k : Byte} (hlength : cw.length = d.length + k.toNat)
      (hlegal : LegalResult (.codewords cw)) : Ending (.rsenc k) (.data d) (.ok (.codewords cw))
  | classified (t : Text) : Ending .classify (.text t) (.ok (.mode (classify t)))
  | noSegment {t : Text} {m : Mode} {l : ECLevel} {c : Cause} (hlegal : LegalCause c) :
      Ending (.segenc m l) (.text t) (.error c)
  | segment {t : Text} {m : Mode} {l : ECLevel} {g : Segment} (hlegal : LegalResult (.segment g)) :
      Ending (.segenc m l) (.text t) (.ok (.segment g))
  | notAssembled {g : Segment} {l : ECLevel} {nb : Nat} (hover : capacity l < nb) :
      Ending (.assemble l) (.seg g) (.error (.overCapacity nb (capacity l)))
  | assembled {g : Segment} {l : ECLevel} {cw : ByteSeq} (hlength : cw.length = capacity l) :
      Ending (.assemble l) (.seg g) (.ok (.codewords cw))
  | noSymbol {t : Text} {l : ECLevel} {c : Cause} (hlegal : LegalCause c) : Ending (.encsym l) (.text t) (.error c)
  | symbol {t : Text} {l : ECLevel} {cw : ByteSeq} (hlength : cw.length = capacity l + nec l)
      (hlegal : LegalResult (.codewords cw)) : Ending (.encsym l) (.text t) (.ok (.codewords cw))

theorem genpolyResult_ending (k : Byte) (wk : Work) : Ending (.genpoly k) .none (genpolyResult k.toNat wk) := by
  unfold genpolyResult
  split_ifs with hk
  · exact .noFactors hk
  · exact .generator (Work.buildGenerator_counts _ _).2
      (Work.buildGenerator_legal (by omega) (by have := k.isLt; omega) wk)

theorem rsencResult_ending (d : ByteSeq) (k : Byte) (wk : Work) :
    Ending (.rsenc k) (.data d) (rsencResult d k.toNat wk) := by
  unfold rsencResult
  split
  next hc => exact .notEncoded (checkRs_error hc).1 (checkRs_error hc).2
  next hc => exact .encoded (rsEncode_shape _ _ _).1 (rsEncode_legal hc wk)

theorem segencResult_ending (t : Text) (m : Mode) (l : ECLevel) (wk : Work) :
    Ending (.segenc m l) (.text t) (segencResult t m l wk) := by
  unfold segencResult
  split
  next hc => exact .noSegment (encodeSegment_error hc)
  next hg => exact .segment (encodeSegment_legal hg)

theorem assembleResult_ending (g : Segment) (l : ECLevel) (wk : Work) :
    Ending (.assemble l) (.seg g) (assembleResult g l wk) := by
  unfold assembleResult
  split
  next hc =>
    obtain ⟨nb, hnb, rfl⟩ := Work.assemble_error hc
    exact .notAssembled hnb
  next hdone => exact .assembled (Work.assemble_length hdone)

theorem encsymResult_ending (t : Text) (l : ECLevel) (wk : Work) :
    Ending (.encsym l) (.text t) (encsymResult t l wk) := by
  unfold encsymResult
  split
  next hc => exact .noSymbol (encodeSymbolData_error hc)
  next hcw => exact .symbol (encodeSymbolData_ok hcw).1 (encodeSymbolData_ok hcw).2

/-- An operation ends in one of the ways listed. -/
theorem outcomeOf_ending {i : Instr} {o : SeqOperand} {wk : Work} {e : Except Cause Result}
    (h : outcomeOf i o wk = some e) : Ending i o e := by
  unfold outcomeOf at h
  split at h <;> cases h
  · exact .sum _ _
  · exact .product _ _
  · exact genpolyResult_ending _ _
  · exact rsencResult_ending _ _ _
  · exact .classified _
  · exact segencResult_ending _ _ _ _
  · exact assembleResult_ending _ _ _
  · exact encsymResult_ending _ _ _

/-- An operation that answers a next state responds with one of its endings, and does nothing else. -/
theorem exec_next_ending {i : Instr} {s t : State} (h : exec i s = .next t) :
    ∃ e, Ending i s.operand e ∧ t = s.respond e := by
  obtain ⟨e, he, rfl⟩ := exec_next h
  exact ⟨e, outcomeOf_ending he, rfl⟩

/-- Whatever way an operation ends, its response is legal (R11). -/
theorem Ending.legal {i : Instr} {o : SeqOperand} {e : Except Cause Result} (h : Ending i o e) :
    LegalResponse (responseOf e) := by
  cases h with
  | sum | product | noFactors | classified => exact trivial
  | generator _ hlegal | notEncoded _ hlegal | encoded _ hlegal | noSegment hlegal | segment hlegal
  | noSymbol hlegal | symbol _ hlegal => exact hlegal
  | notAssembled hover => exact overCapacity_legal hover
  | @assembled _ l cw hlength =>
    have hcap : 2 ≤ capacity l ∧ capacity l ≤ 255 := by cases l <;> decide
    exact ⟨by omega, by omega⟩

/-- Whatever way an operation ends, it reports a status of its row of rule R14's table. -/
theorem Ending.status_mem {i : Instr} {o : SeqOperand} {e : Except Cause Result} (h : Ending i o e) :
    (responseOf e).status ∈ mayReport i := by
  cases h with
  | sum | product | noFactors | generator | encoded | classified | segment | notAssembled | assembled | symbol =>
    simp [responseOf, Response.status, Cause.status, mayReport]
  | notEncoded hstatus => simp [responseOf, Response.status, hstatus, mayReport]
  | @noSegment _ _ _ c | @noSymbol _ _ c => cases c <;> simp [responseOf, Response.status, Cause.status, mayReport]

/-! ### The response -/

theorem Cause.status_ne_ok (c : Cause) : c.status ≠ .ok := by
  cases c <;> nofun

/-- A response carries a result when and only when its status is `OK` (R11). -/
theorem Response.result_isSome_iff (r : Response) : r.result.isSome = true ↔ r.status = .ok := by
  cases r with
  | done x => exact iff_of_true rfl rfl
  | raised c => exact iff_of_false Bool.false_ne_true c.status_ne_ok

/-- A block out of reset that responds is between two operations again, with a legal response (R36). -/
theorem State.respond_inv {i : Instr} {o : SeqOperand} {e : Except Cause Result} {s : State} (h : Ending i o e)
    (hr : s.inReset = false) : Inv (s.respond e) :=
  ⟨rfl, rfl, fun h' => absurd (hr.symm.trans h') Bool.false_ne_true, fun _ hresp => Option.some.inj hresp ▸ h.legal⟩

end Sys2Proof.Machine

/-! No operation reads what an earlier one left in the working registers (R21): every loop initialises the registers
it reads, so what an operation computes is the same from any working state. -/

namespace Sys2Proof.Machine

open Sys2Proof.Safety

/-- When the body of a loop computes a view of the registers from that view alone, so does the loop. -/
theorem iterate_reads {α β : Type} {f : α → α} (view : α → β)
    (h : ∀ a b, view a = view b → view (f a) = view (f b)) (n : Nat) {a b : α} (hab : view a = view b) :
    view (f^[n] a) = view (f^[n] b) := by
  induction n generalizing a b with
  | zero => exact hab
  | succ n ih => exact ih (h a b hab)

/-! ### The registers each loop reads -/

/-- The registers of a row of `poly_mul` (R80). -/
def Work.rowView (wk : Work) : Poly × Nat × Nat := (wk.prod, wk.mulI, wk.mulJ)

/-- The registers carried from row to row of `poly_mul` (R80). -/
def Work.mulView (wk : Work) : Poly × Nat := (wk.prod, wk.mulI)

/-- The registers carried from factor to factor of `build_generator` (R81). -/
def Work.factorView (wk : Work) : Poly × Nat := (wk.g, wk.factor)

/-- The registers of the taps at one position of the divider (R90). -/
def Work.tapView (wk : Work) : Poly × ByteSeq × Nat × Nat × Byte := (wk.g, wk.w, wk.pos, wk.tap, wk.lead)

/-- The registers carried from position to position of the divider (R90). -/
def Work.divView (wk : Work) : Poly × ByteSeq × Nat := (wk.g, wk.w, wk.pos)

/-- The registers of the packers (R113 to R115). -/
def Work.packView (wk : Work) : BitSeq × Nat := (wk.bs, wk.group)

/-- The registers of the pad sequencer (R129). -/
def Work.padView (wk : Work) : ByteSeq × PadPhase := (wk.cwbuf, wk.padPhase)

theorem Work.mulTerm_reads (p q : Poly) (a b : Work) (h : a.rowView = b.rowView) :
    (a.mulTerm p q).rowView = (b.mulTerm p q).rowView := by
  simp_all [Work.rowView, Work.mulTerm]

theorem Work.mulRow_reads (p q : Poly) (a b : Work) (h : a.mulView = b.mulView) :
    (a.mulRow p q).mulView = (b.mulRow p q).mulView := by
  have hstart : ({ a with mulJ := 0 } : Work).rowView = ({ b with mulJ := 0 } : Work).rowView := by
    simp_all [Work.mulView, Work.rowView]
  have hrow := iterate_reads Work.rowView (Work.mulTerm_reads p q) q.size hstart
  simp_all [Work.rowView, Work.mulView, Work.mulRow]

/-- The product of `poly_mul` depends on its operands alone. -/
theorem Work.polyMul_prod_congr (p q : Poly) (a b : Work) : (a.polyMul p q).prod = (b.polyMul p q).prod :=
  congrArg Prod.fst (iterate_reads Work.mulView (Work.mulRow_reads p q) p.size (by rfl))

theorem Work.nextFactor_reads (a b : Work) (h : a.factorView = b.factorView) :
    a.nextFactor.factorView = b.nextFactor.factorView := by
  obtain ⟨hg, hfactor⟩ := Prod.mk.inj h
  simp only [Work.factorView, Work.nextFactor_g, hg, hfactor, Prod.mk.injEq, and_true]
  exact Work.polyMul_prod_congr _ _ _ _

/-- The generator of `build_generator` depends on the count alone. -/
theorem Work.buildGenerator_g_congr (k : Nat) (a b : Work) : (a.buildGenerator k).g = (b.buildGenerator k).g :=
  congrArg Prod.fst (iterate_reads Work.factorView Work.nextFactor_reads k (by rfl))

theorem Work.divTap_reads (k : Nat) (a b : Work) (h : a.tapView = b.tapView) :
    (a.divTap k).tapView = (b.divTap k).tapView := by
  simp_all [Work.tapView, Work.divTap]

theorem Work.divPosition_reads (k : Nat) (a b : Work) (h : a.divView = b.divView) :
    (a.divPosition k).divView = (b.divPosition k).divView := by
  obtain ⟨hg, hw, hpos⟩ : a.g = b.g ∧ a.w = b.w ∧ a.pos = b.pos := by simpa [Work.divView] using h
  have hstart : ({ a with lead := a.w.getD a.pos 0#8, tap := 0 } : Work).tapView =
      ({ b with lead := b.w.getD b.pos 0#8, tap := 0 } : Work).tapView := by
    simp [Work.tapView, hg, hw, hpos]
  have htaps := iterate_reads Work.tapView (Work.divTap_reads k) (k + 1) hstart
  unfold Work.divPosition
  rw [hw, hpos] at htaps ⊢
  by_cases hlead : b.w.getD b.pos 0#8 ≠ 0#8
  · simp only [if_pos hlead]
    simp_all [Work.divView, Work.tapView]
  · simp only [if_neg hlead, Work.divView, hg]

/-- The buffer after the division depends on the data and the count alone. -/
theorem Work.rsDivide_w_congr (d : ByteSeq) (k : Nat) (a b : Work) : (a.rsDivide d k).w = (b.rsDivide d k).w := by
  have hstart : ({ a.buildGenerator k with w := d ++ List.replicate k 0#8, pos := 0 } : Work).divView =
      ({ b.buildGenerator k with w := d ++ List.replicate k 0#8, pos := 0 } : Work).divView := by
    simp [Work.divView, Work.buildGenerator_g_congr k a b]
  exact congrArg (fun v => v.2.1) (iterate_reads Work.divView (Work.divPosition_reads k) d.length hstart)

theorem Work.packTriplet_reads (t : Text) (a b : Work) (h : a.packView = b.packView) :
    (a.packTriplet t).packView = (b.packTriplet t).packView := by
  simp_all [Work.packView, Work.packTriplet]

theorem Work.packPair_reads (t : Text) (a b : Work) (h : a.packView = b.packView) :
    (a.packPair t).packView = (b.packPair t).packView := by
  simp_all [Work.packView, Work.packPair]

theorem Work.packOctet_reads (d : ByteSeq) (a b : Work) (h : a.packView = b.packView) :
    (a.packOctet d).packView = (b.packOctet d).packView := by
  simp_all [Work.packView, Work.packOctet]

theorem Work.padOne_reads (a b : Work) (h : a.padView = b.padView) : a.padOne.padView = b.padOne.padView := by
  obtain ⟨hbuf, hphase⟩ := Prod.mk.inj h
  unfold Work.padOne
  rw [hphase]
  split <;> simp [Work.padView, hbuf]

theorem Work.padOne_iterate_congr (n : Nat) {a b : Work} (h : a.padView = b.padView) :
    (Work.padOne^[n] a).cwbuf = (Work.padOne^[n] b).cwbuf :=
  congrArg Prod.fst (iterate_reads Work.padView Work.padOne_reads n h)

theorem Work.packNumeric_bs_congr (t : Text) (a b : Work) : (a.packNumeric t).bs = (b.packNumeric t).bs := by
  obtain ⟨hbs, hgroup⟩ := Prod.mk.inj (iterate_reads Work.packView (Work.packTriplet_reads t) (t.length / 3)
    (a := { a with bs := [], group := 0 }) (b := { b with bs := [], group := 0 }) rfl)
  simp only [Work.packNumeric, hgroup]
  split_ifs <;> simp only [hbs]

theorem Work.packAlnum_bs_congr (t : Text) (a b : Work) : (a.packAlnum t).bs = (b.packAlnum t).bs := by
  obtain ⟨hbs, hgroup⟩ := Prod.mk.inj (iterate_reads Work.packView (Work.packPair_reads t) (t.length / 2)
    (a := { a with bs := [], group := 0 }) (b := { b with bs := [], group := 0 }) rfl)
  simp only [Work.packAlnum, hgroup]
  split_ifs <;> simp only [hbs]

theorem Work.packBytes_bs_congr (d : ByteSeq) (a b : Work) : (a.packBytes d).bs = (b.packBytes d).bs :=
  congrArg Prod.fst (iterate_reads Work.packView (Work.packOctet_reads d) d.length (by rfl))

/-! ### The stages -/

theorem rsEncode_congr (d : ByteSeq) (k : Nat) (a b : Work) : rsEncode d k a = rsEncode d k b := by
  rw [rsEncode, rsEncode, Work.rsDivide_w_congr d k a b]

/-- The packed bits, or the cause of the data stage, depend on the text and the mode alone. -/
theorem Work.packData_congr (t : Text) (m : Mode) (a b : Work) :
    (a.packData t m).map Work.bs = (b.packData t m).map Work.bs := by
  cases m with
  | numeric =>
    unfold Work.packData
    cases checkFits isDigit t with
    | error c => rfl
    | ok _ => exact congrArg Except.ok (Work.packNumeric_bs_congr t a b)
  | alphanumeric =>
    unfold Work.packData
    cases checkFits isAlnum t with
    | error c => rfl
    | ok _ => exact congrArg Except.ok (Work.packAlnum_bs_congr t a b)
  | byte => exact congrArg Except.ok (Work.packBytes_bs_congr _ a b)
  | kanji => rfl

/-- The codewords of the assembler, or its cause, depend on the segment and the level alone. -/
theorem Work.assemble_congr (g : Segment) (l : ECLevel) (a b : Work) :
    (a.assemble g l).map Work.cwbuf = (b.assemble g l).map Work.cwbuf := by
  have hbs : (a.streamSegment g).bs = (b.streamSegment g).bs := rfl
  unfold Work.assemble
  simp only [hbs]
  split_ifs
  · rfl
  · exact congrArg Except.ok (Work.padOne_iterate_congr _ rfl)

/-- Two outcomes with the same view either both fail with one cause or both succeed with one view. -/
theorem except_map_eq_cases {ε α β : Type} {f : α → β} {x y : Except ε α} (h : x.map f = y.map f) :
    (∃ c, x = .error c ∧ y = .error c) ∨ ∃ u v, x = .ok u ∧ y = .ok v ∧ f u = f v := by
  cases x with
  | error c =>
    cases y with
    | error d => cases h; exact .inl ⟨c, rfl, rfl⟩
    | ok v => cases h
  | ok u =>
    cases y with
    | error d => cases h
    | ok v => exact .inr ⟨u, v, rfl, rfl, Except.ok.inj h⟩

/-- The segment, or the cause, depends on the text and the mode alone (R110). -/
theorem encodeSegment_congr (t : Text) (m : Mode) (l : ECLevel) (a b : Work) :
    encodeSegment t m l a = encodeSegment t m l b := by
  unfold encodeSegment
  obtain ⟨c, ha, hb⟩ | ⟨u, v, ha, hb, hbs⟩ := except_map_eq_cases (Work.packData_congr t m a b)
  · simp only [ha, hb]
  · simp only [ha, hb, hbs]

theorem assembleResult_congr (g : Segment) (l : ECLevel) (a b : Work) :
    assembleResult g l a = assembleResult g l b := by
  unfold assembleResult
  obtain ⟨c, ha, hb⟩ | ⟨u, v, ha, hb, hbuf⟩ := except_map_eq_cases (Work.assemble_congr g l a b)
  · simp only [ha, hb]
  · simp only [ha, hb, hbuf]

/-- The symbol, or the cause of the first stage that fails, depends on the text, the level and the count alone
(R130). -/
theorem encodeSymbolData_congr (k : Nat) (t : Text) (l : ECLevel) (a b : Work) :
    encodeSymbolData k t l a = encodeSymbolData k t l b := by
  unfold encodeSymbolData
  rw [encodeSegment_congr t _ l a b]
  cases encodeSegment t (classify t) l b with
  | error c => rfl
  | ok g =>
    obtain ⟨c, ha, hb⟩ | ⟨u, v, ha, hb, hbuf⟩ := except_map_eq_cases (Work.assemble_congr g l a b)
    · simp only [ha, hb]
    · simp only [ha, hb, hbuf, rsEncode_congr _ _ u v]

/-! ### The operations -/

/-- What an operation computes is a function of its operands alone (R21). -/
theorem outcomeOf_congr (i : Instr) (o : SeqOperand) (a b : Work) : outcomeOf i o a = outcomeOf i o b := by
  unfold outcomeOf
  split
  · rfl
  · rfl
  · simp only [genpolyResult, Work.buildGenerator_g_congr _ a b]
  · simp only [rsencResult, rsEncode_congr _ _ a b]
  · rfl
  · simp only [segencResult, encodeSegment_congr _ _ _ a b]
  · rw [assembleResult_congr _ _ a b]
  · simp only [encsymResult, encodeSymbolData_congr _ _ _ a b]
  · rfl

/-- Two blocks with the same request in flight answer it alike. -/
theorem answer_exec_congr (i : Instr) {s t : State} (h : s.operand = t.operand) :
    answer (exec i s) = answer (exec i t) := by
  rw [answer_exec, answer_exec, h, outcomeOf_congr i _ s.work t.work]

end Sys2Proof.Machine

/-! How a request is taken (R10, R12, R56), and the bits of the codeword view (R31). -/

namespace Sys2Proof.Machine

open Sys2Proof.Safety

/-- A request with a reserved command word is refused (R56, R157). -/
theorem step_issue_reserved {s : State} {r : Request} {rest : List HostAction} {why : Reject}
    (hh : s.host = .issue r :: rest) (hr : s.inReset = false) (hd : decode r.cmd = .error why) :
    step s = .refused (.reservedCommand why) := by
  simp [step_issue hh, serve, hr, hd]

/-- A request whose command word decodes runs its operation (R12, R40). -/
theorem step_issue_decoded {s : State} {r : Request} {rest : List HostAction} {i : Instr}
    (hh : s.host = .issue r :: rest) (hr : s.inReset = false) (hd : decode r.cmd = .ok i) :
    step s = exec i (s.accept r rest) := by
  simp [step_issue hh, serve, hr, hd]

/-- An operation has an outcome exactly when its sequence operand is the one it takes (R10). -/
theorem outcomeOf_isSome (i : Instr) (o : SeqOperand) (wk : Work) :
    (outcomeOf i o wk).isSome = i.wellFormedWith o := by
  cases i <;> cases o <;> rfl

/-! ### The codeword view -/

/-- The bits of one codeword are the eight bits it was taken from (R31). -/
theorem fieldBits_codewordAt (bs : BitSeq) (i : Nat) (h : 8 * i + 8 ≤ bs.length) :
    fieldBits (codewordAt bs i).toNat 8 = (bs.drop (8 * i)).take 8 := by
  have hlen : ((bs.drop (8 * i)).take 8).length = 8 := by simp; omega
  rw [codewordAt_eq bs i h, BitVec.toNat_ofNat, fieldBits_mod _ _ _ le_rfl]
  simpa only [hlen] using fieldBits_valueOf ((bs.drop (8 * i)).take 8)

/-- The bits of the first `n` codewords are the first `8 n` bits of the stream. -/
theorem bitsOf_map_codewordAt (bs : BitSeq) (n : Nat) (h : 8 * n ≤ bs.length) :
    bitsOf ((List.range n).map (codewordAt bs)) = bs.take (8 * n) := by
  induction n with
  | zero => rfl
  | succ n ih =>
    simp only [bitsOf] at ih ⊢
    rw [List.range_succ, List.map_append, List.flatMap_append, ih (by omega), Nat.mul_succ, List.take_add,
      List.map_singleton, List.flatMap_singleton, fieldBits_codewordAt bs n (by omega)]

end Sys2Proof.Machine

/-! The statements about the state, settled. -/

namespace Sys2Proof.Proofs

open Sys2Proof.Machine Sys2Proof.Safety

/-- Settles O16: a step stays idle, ends an operation with a legal response, or moves the reset line. -/
theorem stepKeepsQuietState : Obligations.StepKeepsQuietState := by
  intro s t hinv h
  obtain ⟨-, rfl⟩ | ⟨r, rest, i, e, -, hr, -, he, rfl⟩ | ⟨rest, -, rfl⟩ | ⟨rest, -, rfl⟩ := step_next h
  · exact hinv
  · exact State.respond_inv (outcomeOf_ending he) hr
  · exact ⟨rfl, rfl, fun _ => rfl, nofun⟩
  · obtain ⟨hreq, hwork, -, hlegal⟩ := hinv
    exact ⟨hreq, hwork, nofun, hlegal⟩

/-- Settles O11: an operation has an outcome to respond with exactly when the request is well formed. -/
theorem everyLegalRequestIsAnswered : Obligations.EveryLegalRequestIsAnswered := by
  intro i s
  rw [← outcomeOf_isSome i s.operand s.work, exec_eq]
  cases outcomeOf i s.operand s.work with
  | none => exact ⟨nofun, fun _ => rfl⟩
  | some e => exact ⟨fun _ => ⟨_, _, rfl, rfl⟩, nofun⟩

/-- Settles O13, by the ways an operation can end. -/
theorem resultFieldExactlyWhenOk : Obligations.ResultFieldExactlyWhenOk := by
  intro i s t r hexec hresp
  obtain ⟨e, he, rfl⟩ := exec_next_ending hexec
  obtain rfl := Option.some.inj hresp
  refine ⟨Response.result_isSome_iff _, fun x hx => ?_⟩
  generalize s.operand = o at he ⊢
  cases he with
  | noFactors | notEncoded | noSegment | notAssembled | noSymbol => cases hx
  | sum | product | classified | segment => cases hx; exact ⟨_, rfl⟩
  | generator hsize => cases hx; exact ⟨_, rfl, hsize⟩
  | encoded hlength => cases hx; exact ⟨_, _, rfl, rfl, hlength⟩
  | assembled hlength | symbol hlength => cases hx; exact ⟨_, rfl, hlength⟩

/-- Settles O14, by the ways an operation can end. -/
theorem statusTable : Obligations.StatusTable := by
  intro i s t r hexec hresp
  obtain ⟨e, he, rfl⟩ := exec_next_ending hexec
  obtain rfl := Option.some.inj hresp
  exact he.status_mem

/-- Settles O15: an operation reads the sequence operand alone, and its response discards the working state. -/
theorem responseIsAFunctionOfTheRequest : Obligations.ResponseIsAFunctionOfTheRequest := by
  intro s t r srest trest hs ht hsr htr
  cases hd : decode r.cmd with
  | error why =>
    rw [step_issue_reserved hs hsr hd, step_issue_reserved ht htr hd]
    exact ⟨rfl, fun _ hu => by cases hu⟩
  | ok i =>
    rw [step_issue_decoded hs hsr hd, step_issue_decoded ht htr hd]
    refine ⟨answer_exec_congr i rfl, fun u hu => ?_⟩
    obtain ⟨e, -, rfl⟩ := exec_next hu
    rfl

/-- Settles O46: codeword by codeword, the view keeps the eight bits it was taken from. -/
theorem codewordViewKeepsTheBits : Obligations.CodewordViewKeepsTheBits := by
  intro bs hbs
  have hlen : 8 * (bs.length / 8) = bs.length := by omega
  exact ⟨codewords_length bs, by rw [codewords, bitsOf_map_codewordAt bs _ hlen.le, hlen, List.take_length]⟩

/-- Settles O7: the state the operation runs on is the one that has accepted the request. -/
theorem stepRunsTheDecodedOperation : Obligations.StepRunsTheDecodedOperation :=
  fun _ _ _ _ hh hr hd => step_issue_decoded hh hr hd

/-- Settles O9: by the empty-script case of `step`. -/
theorem idleStepChangesNothing : Obligations.IdleStepChangesNothing := by
  intro s hh
  rw [step, hh]

/-- Settles O17: every field at its reset value. -/
theorem resetStateIsQuiet : Obligations.ResetStateIsQuiet :=
  ⟨rfl, rfl, rfl, rfl, rfl, fun _ => rfl, nofun⟩

/-- Settles O53: by what `State.respond` and `responseOf` set. -/
theorem respondingHoldsTheOutcome : Obligations.RespondingHoldsTheOutcome :=
  ⟨fun _ _ => ⟨rfl, rfl, rfl⟩, fun _ _ => ⟨rfl, rfl, rfl⟩, fun _ _ => ⟨rfl, rfl, rfl⟩⟩

end Sys2Proof.Proofs

/-! The frame of the operations (R37), settled. -/

namespace Sys2Proof.Proofs

open Sys2Proof.Machine

/-- Settles O12: an operation that answers a next state only responds, and each field is what responding makes it. -/
theorem operationFrame : Obligations.OperationFrame := by
  intro i s t hexec
  obtain ⟨e, -, rfl⟩ := exec_next hexec
  have hanswered : (s.respond e).response.isSome = true := by rw [State.respond_response, Option.isSome_some]
  exact ⟨s.respond_host e, s.respond_inReset e, s.respond_request e, s.respond_work e, hanswered⟩

end Sys2Proof.Proofs

/-! The command word as a number and as its fields (R50 to R52, R55), and which words decode (R56). -/

namespace Sys2Proof.Laws

open Sys2Proof.Machine Sys2Proof.Safety

/-! ### The fields of a word -/

@[simp] theorem opField_toNat (w : Word) : (opField w).toNat = w.toNat % 16 := by
  simp [opField]

@[simp] theorem modeField_toNat (w : Word) : (modeField w).toNat = w.toNat / 2 ^ 4 % 16 := by
  simp [modeField, Nat.shiftRight_eq_div_pow]

@[simp] theorem levelField_toNat (w : Word) : (levelField w).toNat = w.toNat / 2 ^ 8 % 4 := by
  simp [levelField, Nat.shiftRight_eq_div_pow]

@[simp] theorem rsvField_toNat (w : Word) : (rsvField w).toNat = w.toNat / 2 ^ 10 % 64 := by
  simp [rsvField, Nat.shiftRight_eq_div_pow]

@[simp] theorem aField_toNat (w : Word) : (aField w).toNat = w.toNat / 2 ^ 16 % 256 := by
  simp [aField, Nat.shiftRight_eq_div_pow]

@[simp] theorem bField_toNat (w : Word) : (bField w).toNat = w.toNat / 2 ^ 24 % 256 := by
  simp [bField, Nat.shiftRight_eq_div_pow]

theorem toNat_append_eq_add {m n : Nat} (x : BitVec m) (y : BitVec n) :
    (x ++ y).toNat = x.toNat * 2 ^ n + y.toNat := by
  rw [BitVec.toNat_append, ← Nat.shiftLeft_add_eq_or_of_lt y.isLt, Nat.shiftLeft_eq]

/-- Where each field of a command word stands (R50). -/
theorem commandWord_toNat (b a : Byte) (level : BitVec 2) (mode op : BitVec 4) :
    (commandWord b a level mode op).toNat =
      b.toNat * 2 ^ 24 + a.toNat * 2 ^ 16 + level.toNat * 2 ^ 8 + mode.toNat * 2 ^ 4 + op.toNat := by
  simp only [commandWord, toNat_append_eq_add, BitVec.toNat_ofNat]
  omega

/-- A word with `RSV` zero is the command word of its own fields (R50). -/
theorem commandWord_fields {w : Word} (hrsv : rsvField w = 0#6) :
    commandWord (bField w) (aField w) (levelField w) (modeField w) (opField w) = w := by
  have hzero : w.toNat / 2 ^ 10 % 64 = 0 := by rw [← rsvField_toNat, hrsv]; rfl
  have hlt := w.isLt
  apply BitVec.eq_of_toNat_eq
  simp only [commandWord_toNat, opField_toNat, modeField_toNat, levelField_toNat, aField_toNat, bField_toNat]
  omega

/-! ### The codes -/

theorem modeOfCode_eq_some_iff (c : BitVec 4) (m : Mode) : modeOfCode c = some m ↔ modeInd m = c := by
  constructor
  · unfold modeOfCode
    intro h
    split_ifs at h <;> cases h <;> exact Eq.symm ‹c = _›
  · rintro rfl
    exact modeOfCode_modeInd m

theorem levelCode_levelOfCode : ∀ c : BitVec 2, levelCode (levelOfCode c) = c := by decide

theorem levelOfCode_eq_iff (c : BitVec 2) (l : ECLevel) : levelOfCode c = l ↔ levelCode l = c :=
  ⟨fun h => h ▸ levelCode_levelOfCode c, fun h => h ▸ levelOfCode_levelCode l⟩

@[simp] theorem modeInd_toNat (m : Mode) : (modeInd m).toNat = wordValue.modeNumber m := by
  cases m <;> rfl

@[simp] theorem levelCode_toNat (l : ECLevel) : (levelCode l).toNat = wordValue.levelNumber l := by
  cases l <;> rfl

/-! ### Decoding and encoding -/

theorem encode_toNat (i : Instr) : (encode i).toNat = wordValue i := by
  cases i <;> simp [encode, commandWord_toNat, wordValue]

theorem decode_encode (i : Instr) : decode (encode i) = .ok i := by
  cases i with
  | gfadd a b => exact RoundTrip.gfadd a b
  | gfmul a b => exact RoundTrip.gfmul a b
  | genpoly k => exact RoundTrip.genpoly k
  | rsenc k => exact RoundTrip.rsenc k
  | classify => exact RoundTrip.classify
  | segenc m l => exact RoundTrip.segenc m l
  | assemble l => exact RoundTrip.assemble l
  | encsym l => exact RoundTrip.encsym l

theorem whenUnusedZero_eq_ok {z : Bool} {r : Except Reject Instr} {i : Instr} :
    whenUnusedZero z r = .ok i ↔ z = true ∧ r = .ok i := by
  cases z <;> simp [whenUnusedZero]

/-- Decoding reads every field: what it leaves out it has found to be zero (R56). -/
theorem encode_of_decode {w : Word} {i : Instr} (h : decode w = .ok i) : encode i = w := by
  unfold decode at h
  split_ifs at h with hrsv
  rw [← commandWord_fields (not_not.1 hrsv)]
  have hop {n : Nat} (hn : (opField w).toNat = n) : opField w = BitVec.ofNat 4 n := by
    rw [← hn, BitVec.ofNat_toNat, BitVec.setWidth_eq]
  split at h
  case h_9 => cases h
  case h_6 hn =>
    obtain ⟨hzero, h⟩ := whenUnusedZero_eq_ok.1 h
    split at h <;> cases h
    next m hm =>
      simp only [Bool.and_eq_true, beq_iff_eq] at hzero
      simp [encode, levelCode_levelOfCode, (modeOfCode_eq_some_iff _ _).1 hm, hop hn, hzero]
  all_goals
    next hn =>
      obtain ⟨hzero, h⟩ := whenUnusedZero_eq_ok.1 h
      cases h
      simp only [Bool.and_eq_true, beq_iff_eq] at hzero
      simp [encode, levelCode_levelOfCode, hop hn, hzero]

theorem decode_eq_ok_iff {w : Word} {i : Instr} : decode w = .ok i ↔ encode i = w :=
  ⟨encode_of_decode, fun h => h ▸ decode_encode i⟩

/-! ### Reserved words -/

theorem not_reserved_of_wordValue {w : Word} {i : Instr} (h : wordValue i = w.toNat) : ¬ Reserved w := by
  have hlevel (l : ECLevel) : wordValue.levelNumber l < 4 := by cases l <;> decide
  have hmode (m : Mode) : wordValue.modeNumber m ∈ [1, 2, 4, 8] := by cases m <;> decide
  unfold Reserved
  rw [← h]
  cases i with
  | gfadd a b | gfmul a b =>
    have := a.isLt
    have := b.isLt
    simp only [wordValue]
    omega
  | genpoly k | rsenc k =>
    have := k.isLt
    simp only [wordValue]
    omega
  | classify => decide
  | segenc m l =>
    have hl := hlevel l
    have hm := hmode m
    simp only [wordValue, List.mem_cons, List.not_mem_nil, or_false] at hm ⊢
    omega
  | assemble l | encsym l =>
    have := hlevel l
    simp only [wordValue]
    omega

theorem exists_wordValue_of_not_reserved {w : Word} (h : ¬ Reserved w) : ∃ i, wordValue i = w.toNat := by
  have hlt := w.isLt
  have hlevel : wordValue.levelNumber (levelOfCode (levelField w)) = w.toNat / 2 ^ 8 % 4 := by
    rw [← levelCode_toNat, levelCode_levelOfCode, levelField_toNat]
  simp only [Reserved, not_or, not_and, not_not, not_le] at h
  obtain ⟨hop, hrsv, hmode, hlow, ha, hb, hsegenc⟩ := h
  obtain hn | hn | hn | hn | hn | hn | hn | hn : w.toNat % 16 = 0 ∨ w.toNat % 16 = 1 ∨ w.toNat % 16 = 2 ∨
      w.toNat % 16 = 3 ∨ w.toNat % 16 = 4 ∨ w.toNat % 16 = 5 ∨ w.toNat % 16 = 6 ∨ w.toNat % 16 = 7 := by omega
  · exact ⟨.gfadd (aField w) (bField w), by simp only [wordValue, aField_toNat, bField_toNat]; omega⟩
  · exact ⟨.gfmul (aField w) (bField w), by simp only [wordValue, aField_toNat, bField_toNat]; omega⟩
  · exact ⟨.genpoly (aField w), by simp only [wordValue, aField_toNat]; omega⟩
  · exact ⟨.rsenc (aField w), by simp only [wordValue, aField_toNat]; omega⟩
  · exact ⟨.classify, by simp only [wordValue]; omega⟩
  · obtain ⟨m, hm⟩ : ∃ m, wordValue.modeNumber m = w.toNat / 2 ^ 4 % 16 := by
      by_contra! hnone
      exact hnone .kanji (hsegenc hn (hnone .numeric).symm (hnone .alphanumeric).symm (hnone .byte).symm).symm
    exact ⟨.segenc m (levelOfCode (levelField w)), by simp only [wordValue, hlevel, hm]; omega⟩
  · exact ⟨.assemble (levelOfCode (levelField w)), by simp only [wordValue, hlevel]; omega⟩
  · exact ⟨.encsym (levelOfCode (levelField w)), by simp only [wordValue, hlevel]; omega⟩

/-- Exactly the words that are not reserved decode (R56). -/
theorem exists_decode_iff (w : Word) : (∃ i, decode w = .ok i) ↔ ¬ Reserved w := by
  simp only [decode_eq_ok_iff]
  constructor
  · rintro ⟨i, rfl⟩
    exact not_reserved_of_wordValue (encode_toNat i).symm
  · intro h
    obtain ⟨i, hi⟩ := exists_wordValue_of_not_reserved h
    exact ⟨i, BitVec.eq_of_toNat_eq ((encode_toNat i).trans hi)⟩

end Sys2Proof.Laws

/-! The codes of the statuses (R53). -/

namespace Sys2Proof.Machine

theorem Status.code_injective : Function.Injective Status.code := by
  intro a b h
  cases a <;> cases b <;> cases h <;> rfl

end Sys2Proof.Machine

/-! What the block reads from a text: the alphabet, the Kanji class, the bytes (R58, R61, R62). -/

namespace Sys2Proof.Machine

open Sys2Proof.Safety

/-! ### The alphanumeric alphabet -/

/-- An index leads back to its character. -/
theorem getElem?_of_alnumIndex {c : CodePoint} {i : Nat} (h : alnumIndex c = some i) : alnumAlphabet[i]? = some c := by
  obtain ⟨hi, hc, -⟩ := List.idxOf?_eq_some_iff.1 h
  rw [List.getElem?_eq_getElem hi, hc]

theorem alnumIndex_lt {c : CodePoint} {i : Nat} (h : alnumIndex c = some i) : i < 45 :=
  (List.getElem?_eq_some_iff.1 (getElem?_of_alnumIndex h)).1

theorem alnumIndex_injective {c d : CodePoint} {i : Nat} (hc : alnumIndex c = some i) (hd : alnumIndex d = some i) :
    c = d :=
  Option.some.inj ((getElem?_of_alnumIndex hc).symm.trans (getElem?_of_alnumIndex hd))

/-- The alphabet and the printed table agree up to `Z`, their largest code point. -/
theorem alnumIndex_eq_tableIndex_of_le_Z :
    ∀ n < 0x5B, alnumIndex (Char.ofNat n) = tableIndex (Char.ofNat n) := by
  decide

theorem alnumIndex_eq_none_of_Z_lt {c : CodePoint} (h : 0x5B ≤ c.toNat) : alnumIndex c = none := by
  have hle : ∀ d ∈ alnumAlphabet, d.toNat < 0x5B := by simp [alnumAlphabet]
  exact List.idxOf?_eq_none_iff.2 fun hc => absurd (hle c hc) (not_lt.2 h)

theorem tableIndex_eq_none_of_Z_lt {c : CodePoint} (h : 0x5B ≤ c.toNat) : tableIndex c = none := by
  unfold tableIndex
  rw [if_neg (by omega), if_neg (by omega)]
  split
  case h_10 => rfl
  all_goals omega

theorem alnumIndex_eq_tableIndex (c : CodePoint) : alnumIndex c = tableIndex c := by
  by_cases h : c.toNat < 0x5B
  · rw [← Char.ofNat_toNat c]
    exact alnumIndex_eq_tableIndex_of_le_Z _ h
  · rw [alnumIndex_eq_none_of_Z_lt (not_lt.1 h), tableIndex_eq_none_of_Z_lt (not_lt.1 h)]

/-! ### The Kanji class -/

theorem isKanjiClass_of_lt {c : CodePoint} (h : c.toNat < 0x80) : isKanjiClass c = false :=
  if_pos (.inl h)

theorem isKanjiClass_of_mem_example {c : CodePoint} (h : c ∈ kanjiExample) : isKanjiClass c = true := by
  have hrange : ∀ d ∈ kanjiExample, ¬ (d.toNat < 0x80 ∨ d.toNat = 0xE9) := by simp [kanjiExample]
  rw [isKanjiClass, if_neg (hrange c h), if_pos (List.contains_iff_mem.2 h)]

theorem mem_kanjiExample {c : CodePoint} (h : c.toNat ∈ [0x3053, 0x3093, 0x306B, 0x3061, 0x306F]) :
    c ∈ kanjiExample := by
  rw [← Char.ofNat_toNat c]
  exact List.mem_map_of_mem (f := Char.ofNat) h

theorem classify_eAcute : classify [Char.ofNat 0xE9] = .byte := by decide

/-! ### The bytes of a text -/

/-- The bytes of a code point are those of Lean's own encoder: the same four ranges, and in each the leading byte's part
of the code point fits the bits that encoder keeps of it. -/
theorem charBytes_toNat (c : CodePoint) :
    (charBytes c).map BitVec.toNat = (String.utf8EncodeChar c).map UInt8.toNat := by
  have hmax : c.toNat ≤ 0x10FFFF := c.toNat_le_max
  have hval : c.val.toNat = c.toNat := rfl
  simp only [charBytes, String.utf8EncodeChar, hval, Nat.le_iff_lt_add_one, Nat.reduceAdd]
  split_ifs
  · rfl
  all_goals
    simp only [List.map_cons, List.map_nil, BitVec.toNat_ofNat, UInt8.toNat_ofNat', List.cons.injEq, and_true]
    omega

theorem textBytes_toNat (t : Text) :
    (textBytes t).map BitVec.toNat = t.flatMap (fun c => (String.utf8EncodeChar c).map UInt8.toNat) := by
  simp only [textBytes, List.map_flatMap, charBytes_toNat]

end Sys2Proof.Machine

/-! What `SEGENC` answers, and the widths of what the packers build (R110, R113 to R115). -/

namespace Sys2Proof.Machine

open Sys2Proof.Safety

/-! ### The packers -/

theorem Work.packTriplet_iterate (t : Text) (n : Nat) (wk : Work) :
    ((Work.packTriplet t)^[n] wk).bs.length = wk.bs.length + n * 10 ∧
      ((Work.packTriplet t)^[n] wk).group = wk.group + n * 3 :=
  ⟨iterate_counts (view := fun w : Work => w.bs.length) (fun w => by simp [Work.packTriplet]) n wk,
    iterate_counts (view := Work.group) (fun _ => rfl) n wk⟩

theorem Work.packPair_iterate (t : Text) (n : Nat) (wk : Work) :
    ((Work.packPair t)^[n] wk).bs.length = wk.bs.length + n * 11 ∧
      ((Work.packPair t)^[n] wk).group = wk.group + n * 2 :=
  ⟨iterate_counts (view := fun w : Work => w.bs.length) (fun w => by simp [Work.packPair]) n wk,
    iterate_counts (view := Work.group) (fun _ => rfl) n wk⟩

/-- Ten bits for each three digits, seven for two that are left, four for one (R113). -/
theorem Work.packNumeric_length (t : Text) (wk : Work) :
    (wk.packNumeric t).bs.length = 10 * (t.length / 3) + [0, 4, 7].getD (t.length % 3) 0 := by
  obtain ⟨hbs, hgroup⟩ := Work.packTriplet_iterate t (t.length / 3) { wk with bs := [], group := 0 }
  have hleft : t.length - (0 + t.length / 3 * 3) = t.length % 3 := by omega
  simp only [Work.packNumeric, hgroup, hleft]
  obtain hmod | hmod | hmod : t.length % 3 = 0 ∨ t.length % 3 = 1 ∨ t.length % 3 = 2 := by omega
  all_goals simp [hmod, hbs, Nat.mul_comm]

/-- Eleven bits for each two characters, six for one that is left (R114). -/
theorem Work.packAlnum_length (t : Text) (wk : Work) :
    (wk.packAlnum t).bs.length = 11 * (t.length / 2) + 6 * (t.length % 2) := by
  obtain ⟨hbs, hgroup⟩ := Work.packPair_iterate t (t.length / 2) { wk with bs := [], group := 0 }
  have hleft : t.length - (0 + t.length / 2 * 2) = t.length % 2 := by omega
  simp only [Work.packAlnum, hgroup, hleft]
  obtain hmod | hmod : t.length % 2 = 0 ∨ t.length % 2 = 1 := by omega
  all_goals simp [hmod, hbs, Nat.mul_comm]

/-- Eight bits for each byte (R115). -/
theorem Work.packBytes_length (d : ByteSeq) (wk : Work) : (wk.packBytes d).bs.length = 8 * d.length := by
  have hbs := iterate_counts (view := fun w : Work => w.bs.length) (f := Work.packOctet d) (c := 8)
    (fun w => by simp [Work.packOctet]) d.length { wk with bs := [], group := 0 }
  rw [Work.packBytes, hbs, List.length_nil, Nat.zero_add, Nat.mul_comm]

/-! ### The segment -/

theorem Work.packData_numeric_ok {t : Text} {wk packed : Work} (h : wk.packData t .numeric = .ok packed) :
    packed = wk.packNumeric t := by
  simp only [Work.packData] at h
  split at h <;> cases h
  rfl

theorem Work.packData_alphanumeric_ok {t : Text} {wk packed : Work} (h : wk.packData t .alphanumeric = .ok packed) :
    packed = wk.packAlnum t := by
  simp only [Work.packData] at h
  split at h <;> cases h
  rfl

theorem Work.packData_byte_ok {t : Text} {wk packed : Work} (h : wk.packData t .byte = .ok packed) :
    packed = wk.packBytes (textBytes t) := by
  cases h
  rfl

/-- What a segment the encoder answers is made of (R110). -/
theorem encodeSegment_ok {t : Text} {m : Mode} {l : ECLevel} {wk : Work} {g : Segment}
    (h : encodeSegment t m l wk = .ok g) :
    charCount t m < 2 ^ countBits m ∧ ∃ packed, wk.packData t m = .ok packed ∧
      g = { mode := m, mi := fieldBits (modeInd m).toNat 4, cci := fieldBits (charCount t m) (countBits m),
            data := packed.bs } := by
  unfold encodeSegment at h
  dsimp only at h
  split_ifs at h with hcount
  split at h <;> cases h
  next packed hpacked =>
    exact ⟨not_le.1 hcount, packed, hpacked, by simp [appendBits_eq, modeIndBits]⟩

/-- `SEGENC` answers a segment when the segment encoder does, the same one. -/
theorem answer_segenc_done {t : Text} {m : Mode} {l : ECLevel} {s : State} {g : Segment} :
    answer (exec (.segenc m l) (asking s (.text t))) = some (.done (.segment g)) ↔
      encodeSegment t m l s.work = .ok g := by
  rw [exec_segenc (State.asking_operand s (.text t))]
  simp only [answer, State.respond_response, State.asking_work, segencResult, Option.some.injEq]
  cases encodeSegment t m l s.work <;> simp [responseOf]

/-- The count of R112 by cases on Byte mode. -/
theorem charCount_eq (t : Text) (m : Mode) :
    charCount t m = if m = .byte then (textBytes t).length else t.length := by
  cases m <;> rfl

end Sys2Proof.Machine

/-! The statements about the encoding, settled. -/

namespace Sys2Proof.Proofs

open Sys2Proof.Machine Sys2Proof.Safety Sys2Proof.Laws

/-- Settles O1, operation by operation. -/
theorem decodeOfEncodeIsTheInstruction : Obligations.DecodeOfEncodeIsTheInstruction :=
  decode_encode

/-- Settles O2: a word that decodes is the command word of its own fields. -/
theorem encodeOfDecodeIsTheWord : Obligations.EncodeOfDecodeIsTheWord :=
  fun _ _ => encode_of_decode

/-- Settles O3: the fields of a command word, added up. -/
theorem commandWordLayout : Obligations.CommandWordLayout :=
  encode_toNat

/-- Settles O5: the words that decode are those that are not reserved. -/
theorem reservedWordsAreRefused : Obligations.ReservedWordsAreRefused := by
  intro s r rest hh hr
  constructor
  · intro hreserved
    cases hd : decode r.cmd with
    | error why => exact ⟨why, step_issue_reserved hh hr hd⟩
    | ok i => exact absurd hreserved ((exists_decode_iff _).1 ⟨i, hd⟩)
  · intro hlegal
    obtain ⟨i, hd⟩ := (exists_decode_iff _).2 hlegal
    exact ⟨i, hd, step_issue_decoded hh hr hd⟩

/-- Settles O4: by evaluating `decode` on each word. -/
theorem printedCommandWordsDecode : Obligations.PrintedCommandWordsDecode := by
  unfold Obligations.PrintedCommandWordsDecode
  decide

/-- Settles O6: each code is read back as the value it was made from. -/
theorem interfaceCodesAreOneToOne : Obligations.InterfaceCodesAreOneToOne :=
  ⟨modeOfCode_eq_some_iff, levelOfCode_eq_iff, fun _ _ h => Status.code_injective h,
    rfl, rfl, rfl, rfl, rfl, rfl, rfl, rfl, rfl, rfl, rfl, rfl⟩

/-- Settles O41: the parts of the segment, measured. -/
theorem segmentWidths : Obligations.SegmentWidths := by
  intro t m l s g h
  obtain ⟨hcount, packed, hpacked, rfl⟩ := encodeSegment_ok (answer_segenc_done.1 h)
  refine ⟨rfl, fieldBits_length _ _, fieldBits_length _ _, ?_, ?_, ?_, ?_⟩
  · rw [valueOf_fieldBits, Nat.mod_eq_of_lt hcount, charCount_eq]
  · rintro rfl
    rw [Work.packData_numeric_ok hpacked, Work.packNumeric_length]
  · rintro rfl
    rw [Work.packData_alphanumeric_ok hpacked, Work.packAlnum_length]
  · rintro rfl
    rw [Work.packData_byte_ok hpacked, Work.packBytes_length]

/-- Settles O33: index by index up to the last code point of the alphabet, and none beyond it. -/
theorem alphabetIndexIsTheTable : Obligations.AlphabetIndexIsTheTable :=
  ⟨alnumIndex_eq_tableIndex, fun _ _ => alnumIndex_lt, fun _ _ _ => alnumIndex_injective⟩

/-- Settles O35, code point by code point. -/
theorem textBytesAreUtf8 : Obligations.TextBytesAreUtf8 :=
  textBytes_toNat

/-- Settles O34: none of the constraints reaches the open parameter. -/
theorem kanjiClassConstraints : Obligations.KanjiClassConstraints := by
  refine ⟨fun _ => isKanjiClass_of_lt, fun _ hc => isKanjiClass_of_mem_example (mem_kanjiExample hc), fun s hs => ?_⟩
  rw [exec_classify hs, classify_eAcute]

/-- Settles O36: the appended bits are the field, and the field reads back as its value. -/
theorem appendBitsIsMostSignificantFirst : Obligations.AppendBitsIsMostSignificantFirst := by
  intro bs v w hv
  refine ⟨appendBits_eq bs v w, appendBits_length bs v w, ?_⟩
  rw [appendBits_eq, List.drop_left, valueOf_fieldBits, Nat.mod_eq_of_lt hv]

end Sys2Proof.Proofs

/-! The field (R70 to R73): a byte as a polynomial over GF(2), the residues modulo `POLY`, and every law of `gf_add` and
`gf_mul` carried over from that ring. -/

namespace Sys2Proof.Machine

open Sys2Proof.Safety Polynomial

/-! ### Bits as coefficients -/

/-- The polynomial over GF(2) whose coefficients are the bits of a word (R72). -/
noncomputable def polyOf {w : Nat} (v : BitVec w) : (ZMod 2)[X] :=
  ofFn w fun i => if v.getLsbD i then 1 else 0

@[simp] theorem coeff_polyOf {w : Nat} (v : BitVec w) (i : Nat) :
    (polyOf v).coeff i = if v.getLsbD i then 1 else 0 := by
  by_cases hi : i < w
  · exact ofFn_coeff_eq_val_of_lt _ hi
  · rw [polyOf, ofFn_coeff_eq_zero_of_ge _ (not_lt.1 hi), BitVec.getLsbD_of_ge v i (not_lt.1 hi)]
    rfl

theorem represents_iff (a : Byte) (p : (ZMod 2)[X]) : Represents a p ↔ p = polyOf a := by
  simp only [Represents, Polynomial.ext_iff, coeff_polyOf]

theorem polyOf_injective {w : Nat} : Function.Injective (polyOf (w := w)) := by
  intro a b h
  refine BitVec.eq_of_getLsbD_eq fun i _ => ?_
  have hcoeff := congrArg (fun p => coeff p i) h
  simp only [coeff_polyOf] at hcoeff
  cases ha : a.getLsbD i <;> cases hb : b.getLsbD i <;> simp [ha, hb] at hcoeff ⊢

theorem degree_polyOf_lt {w : Nat} (v : BitVec w) : (polyOf v).degree < w := ofFn_degree_lt _

@[simp] theorem polyOf_zero (w : Nat) : polyOf 0#w = 0 := by
  ext i
  simp

@[simp] theorem polyOf_one {w : Nat} : polyOf 1#(w + 1) = 1 := by
  ext i
  simp [coeff_one, BitVec.getLsbD_one]

theorem polyOf_xor {w : Nat} (a b : BitVec w) : polyOf (a ^^^ b) = polyOf a + polyOf b := by
  ext i
  rw [coeff_add, coeff_polyOf, coeff_polyOf, coeff_polyOf, BitVec.getLsbD_xor]
  cases a.getLsbD i <;> cases b.getLsbD i <;> decide

/-- A shift with one bit of room multiplies by x. -/
theorem polyOf_shiftLeft_one {w : Nat} (v : BitVec w) : polyOf (v.setWidth (w + 1) <<< 1) = X * polyOf v := by
  ext i
  cases i with
  | zero => simp
  | succ i =>
    rw [coeff_X_mul, coeff_polyOf, coeff_polyOf]
    by_cases hi : i < w
    · simp [hi]
    · simp [hi, BitVec.getLsbD_of_ge v i (not_lt.1 hi)]

/-- A word is its lowest bit and x times the rest. -/
theorem polyOf_eq_shiftRight_one {w : Nat} (v : BitVec w) :
    polyOf v = (if v.getLsbD 0 then 1 else 0 : (ZMod 2)[X]) + X * polyOf (v >>> 1) := by
  ext i
  cases i with
  | zero => cases h : v.getLsbD 0 <;> simp [h]
  | succ i => cases v.getLsbD 0 <;> simp [coeff_one, Nat.add_comm 1 i]

/-- Dropping a top bit that is clear leaves the polynomial. -/
theorem polyOf_setWidth {w : Nat} (v : BitVec (w + 1)) (h : v.getLsbD w = false) :
    polyOf (v.setWidth w) = polyOf v := by
  ext i
  rw [coeff_polyOf, coeff_polyOf, BitVec.getLsbD_setWidth]
  obtain hi | rfl | hi := lt_trichotomy i w
  · simp [hi]
  · rw [h, Bool.and_false]
  · simp [BitVec.getLsbD_of_ge v i hi]

/-! ### The ring of residues -/

/-- `POLY`, the polynomial the field is taken modulo (R72). -/
noncomputable def modulus : (ZMod 2)[X] := X ^ 8 + X ^ 4 + X ^ 3 + X ^ 2 + 1

theorem degree_modulus : modulus.degree = 8 := by
  unfold modulus
  compute_degree!

theorem monic_modulus : modulus.Monic := by
  unfold modulus
  monicity!

theorem polyOf_poly : polyOf poly = modulus := by
  ext i
  by_cases hi : i < 9
  · simp only [coeff_polyOf, modulus, coeff_add, coeff_X_pow, coeff_one]
    revert i
    decide
  · rw [coeff_polyOf, BitVec.getLsbD_of_ge _ _ (not_lt.1 hi), coeff_eq_zero_of_degree_lt]
    · rfl
    · rw [degree_modulus]
      exact_mod_cast (by omega : 8 < i)

/-- The residue a word stands for. -/
noncomputable def residue {w : Nat} (v : BitVec w) : AdjoinRoot modulus := AdjoinRoot.mk modulus (polyOf v)

/-- A byte's polynomial is already reduced. -/
theorem polyOf_modByMonic (a : Byte) : polyOf a %ₘ modulus = polyOf a := by
  rw [modByMonic_eq_self_iff monic_modulus, degree_modulus]
  exact degree_polyOf_lt a

theorem residue_eq_mk_iff (a : Byte) (p : (ZMod 2)[X]) :
    residue a = AdjoinRoot.mk modulus p ↔ polyOf a = p %ₘ modulus := by
  rw [residue, AdjoinRoot.mk_eq_mk, ← modByMonic_eq_zero_iff_dvd monic_modulus, sub_modByMonic, polyOf_modByMonic,
    sub_eq_zero]

/-- Different bytes stand for different residues. -/
theorem residue_injective : Function.Injective (residue (w := 8)) := fun a b h =>
  polyOf_injective (((residue_eq_mk_iff a _).1 h).trans (polyOf_modByMonic b))

@[simp] theorem residue_zero : residue 0#8 = 0 := by simp [residue]

@[simp] theorem residue_one : residue 1#8 = 1 := by simp [residue]

theorem residue_xor {w : Nat} (a b : BitVec w) : residue (a ^^^ b) = residue a + residue b := by
  simp only [residue, polyOf_xor, map_add]

@[simp] theorem residue_gfAdd (a b : Byte) : residue (gfAdd a b) = residue a + residue b := residue_xor a b

theorem residue_poly : residue poly = 0 := by rw [residue, polyOf_poly, AdjoinRoot.mk_self]

/-! ### `gf_mul` multiplies residues (R71) -/

/-- A shift with the reduction multiplies by x: `POLY` is zero in the ring, and it clears bit 8. -/
@[simp] theorem residue_shiftReduce (x : Byte) : residue (shiftReduce x) = AdjoinRoot.root modulus * residue x := by
  have hshift : residue (x.setWidth 9 <<< 1) = AdjoinRoot.root modulus * residue x := by
    rw [residue, polyOf_shiftLeft_one, map_mul, AdjoinRoot.mk_X, residue]
  have htrunc (v : BitVec 9) (hv : v.getLsbD 8 = false) : residue (v.setWidth 8) = residue v := by
    rw [residue, polyOf_setWidth v hv, residue]
  unfold shiftReduce
  dsimp only
  split_ifs with h
  · have hpoly : poly.getLsbD 8 = true := by decide
    rw [htrunc _ (by rw [BitVec.getLsbD_xor, h, hpoly]; rfl), residue_xor, residue_poly, add_zero, hshift]
  · rw [htrunc _ (Bool.eq_false_iff.2 h), hshift]

theorem residue_eq_shiftRight_one (y : Byte) :
    residue y = (if y.getLsbD 0 then 1 else 0 : AdjoinRoot modulus) + AdjoinRoot.root modulus * residue (y >>> 1) := by
  rw [residue, polyOf_eq_shiftRight_one, map_add, map_mul, AdjoinRoot.mk_X, apply_ite (AdjoinRoot.mk modulus), map_one,
    map_zero, residue]

/-- What the loop of `gf_mul` keeps: what is accumulated, and the product still to be added. -/
noncomputable def passValue (r : Byte × Byte × Byte) : AdjoinRoot modulus :=
  residue r.1 + residue r.2.1 * residue r.2.2

theorem passValue_mulPass (r : Byte × Byte × Byte) : passValue (mulPass r) = passValue r := by
  obtain ⟨acc, x, y⟩ := r
  have hy := residue_eq_shiftRight_one y
  simp only [passValue, mulPass, residue_shiftReduce]
  rw [hy]
  split_ifs
  · rw [residue_xor]
    ring
  · ring

/-- Eight passes use up all bits of the second operand. -/
theorem mulPass_iterate_rest (n : Nat) (r : Byte × Byte × Byte) : (mulPass^[n] r).2.2 = r.2.2 >>> n := by
  induction n with
  | zero => simp
  | succ n ih =>
    rw [Function.iterate_succ_apply']
    simp only [mulPass, ih, BitVec.shiftRight_add]

@[simp] theorem residue_gfMul (a b : Byte) : residue (gfMul a b) = residue a * residue b := by
  have hrest : (mulPass^[8] (0#8, a, b)).2.2 = 0#8 := by
    rw [mulPass_iterate_rest]
    exact BitVec.ushiftRight_eq_zero le_rfl
  have hkeeps : passValue (mulPass^[8] (0#8, a, b)) = passValue (0#8, a, b) :=
    iterate_keeps passValue_mulPass 8 _
  simpa only [gfMul, passValue, hrest, residue_zero, mul_zero, add_zero, zero_add] using hkeeps

/-- `gf_mul` is the product modulo `POLY` (R71). -/
theorem polyOf_gfMul (a b : Byte) : polyOf (gfMul a b) = (polyOf a * polyOf b) %ₘ modulus := by
  rw [← residue_eq_mk_iff, residue_gfMul, map_mul]
  rfl

/-! ### The laws that hold in every ring (R72) -/

theorem gfAdd_comm (a b : Byte) : gfAdd a b = gfAdd b a := BitVec.xor_comm a b

theorem gfAdd_assoc (a b c : Byte) : gfAdd (gfAdd a b) c = gfAdd a (gfAdd b c) := BitVec.xor_assoc a b c

@[simp] theorem gfAdd_zero (a : Byte) : gfAdd a 0#8 = a := BitVec.xor_zero

@[simp] theorem gfAdd_self (a : Byte) : gfAdd a a = 0#8 := BitVec.xor_self

theorem gfMul_comm (a b : Byte) : gfMul a b = gfMul b a := residue_injective (by simp [mul_comm])

theorem gfMul_assoc (a b c : Byte) : gfMul (gfMul a b) c = gfMul a (gfMul b c) :=
  residue_injective (by simp [mul_assoc])

@[simp] theorem gfMul_one (a : Byte) : gfMul a 1#8 = a := residue_injective (by simp)

@[simp] theorem gfMul_zero (a : Byte) : gfMul a 0#8 = 0#8 := residue_injective (by simp)

@[simp] theorem zero_gfMul (a : Byte) : gfMul 0#8 a = 0#8 := by rw [gfMul_comm, gfMul_zero]

@[simp] theorem one_gfMul (a : Byte) : gfMul 1#8 a = a := by rw [gfMul_comm, gfMul_one]

theorem gfMul_gfAdd (a b c : Byte) : gfMul a (gfAdd b c) = gfAdd (gfMul a b) (gfMul a c) :=
  residue_injective (by simp [mul_add])

/-! ### Multiplying by 2 (R71) -/

theorem shiftReduce_eq (b : Byte) : shiftReduce b = if b.getLsbD 7 then (b <<< 1) ^^^ 0x1D#8 else b <<< 1 := by
  have htop : (b.setWidth 9 <<< 1).getLsbD 8 = b.getLsbD 7 := by simp
  have hlow : (b.setWidth 9 <<< 1).setWidth 8 = b <<< 1 := by
    ext i hi
    simp
  unfold shiftReduce
  dsimp only
  rw [htop]
  split_ifs
  · rw [BitVec.setWidth_xor, hlow]
    rfl
  · exact hlow

theorem residue_alpha : residue alpha = AdjoinRoot.root modulus := by
  rw [show alpha = shiftReduce 1#8 by decide, residue_shiftReduce, residue_one, mul_one]

theorem gfMul_alpha (a : Byte) : gfMul a alpha = shiftReduce a :=
  residue_injective (by rw [residue_gfMul, residue_alpha, residue_shiftReduce, mul_comm])

/-! ### Powers of the generator element (R73) -/

theorem residue_gfExp (i : Nat) : residue (gfExp i) = AdjoinRoot.root modulus ^ i := by
  induction i with
  | zero => rw [gfExp, residue_one, pow_zero]
  | succ i ih => rw [gfExp, residue_gfMul, ih, residue_alpha, pow_succ]

set_option maxRecDepth 4000 in
/-- Each entry of the printed table is the one before it, shifted with the reduction. -/
theorem expTable_succ : ∀ i < 255, expTable.getD (i + 1) 0#8 = shiftReduce (expTable.getD i 0#8) := by decide

theorem gfExp_eq_expTable {i : Nat} (h : i < 256) : gfExp i = expTable.getD i 0#8 := by
  induction i with
  | zero => rfl
  | succ i ih => rw [gfExp, ih (by omega), gfMul_alpha, expTable_succ i (by omega)]

theorem root_pow_eq_one_iff {i : Nat} (h : i < 256) :
    AdjoinRoot.root modulus ^ i = 1 ↔ expTable.getD i 0#8 = 1#8 := by
  rw [← residue_gfExp, ← residue_one, residue_injective.eq_iff, gfExp_eq_expTable h]

theorem root_pow_period : AdjoinRoot.root modulus ^ 255 = 1 := (root_pow_eq_one_iff (by decide)).2 (by decide)

/-- The period is no smaller: 255 is 3 * 5 * 17, and the powers 85, 51 and 15 are not 1. -/
theorem orderOf_root : orderOf (AdjoinRoot.root modulus) = 255 := by
  refine orderOf_eq_of_pow_and_pow_div_prime (by decide) root_pow_period fun p hp hdvd => ?_
  have hprime : p = 3 ∨ p = 5 ∨ p = 17 := by
    have hmem : p ∈ Nat.primeFactorsList 255 := (Nat.mem_primeFactorsList (by decide)).2 ⟨hp, hdvd⟩
    simpa [Nat.primeFactorsList_ofNat] using hmem
  rw [Ne, root_pow_eq_one_iff (by obtain rfl | rfl | rfl := hprime <;> decide)]
  obtain rfl | rfl | rfl := hprime <;> decide

theorem gfExp_add_period (i : Nat) : gfExp (i + 255) = gfExp i :=
  residue_injective (by rw [residue_gfExp, residue_gfExp, pow_add, root_pow_period, mul_one])

theorem gfExp_injOn : Set.InjOn gfExp (Set.Iio 255) := by
  intro i hi j hj h
  rw [← orderOf_root] at hi hj
  exact pow_injOn_Iio_orderOf hi hj (by simpa only [residue_gfExp] using congrArg residue h)

theorem gfMul_gfExp (i j : Nat) : gfMul (gfExp i) (gfExp j) = gfExp (i + j) :=
  residue_injective (by rw [residue_gfMul, residue_gfExp, residue_gfExp, residue_gfExp, pow_add])

/-- Every power has an inverse, the power that completes its exponent to a multiple of the period. -/
theorem exists_gfMul_gfExp_eq_one (i : Nat) : ∃ b, gfMul (gfExp i) b = 1#8 := by
  refine ⟨gfExp (254 * i), residue_injective ?_⟩
  rw [gfMul_gfExp, residue_gfExp, show i + 254 * i = 255 * i by omega, pow_mul, root_pow_period, one_pow, residue_one]

theorem gfExp_ne_zero (i : Nat) : gfExp i ≠ 0#8 := by
  intro hzero
  obtain ⟨b, hb⟩ := exists_gfMul_gfExp_eq_one i
  rw [hzero, zero_gfMul] at hb
  exact absurd hb (by decide)

/-- The 255 powers are distinct and not zero, and there are only 255 bytes that are not zero. -/
theorem exists_gfExp_eq {a : Byte} (ha : a ≠ 0#8) : ∃ i, gfExp i = a := by
  have hpos (b : Byte) : b ≠ 0#8 ↔ 0 < b.toNat := by rw [Nat.pos_iff_ne_zero, Ne, ← BitVec.toNat_inj]; rfl
  have hmaps : Set.MapsTo (fun i => (gfExp i).toNat) (Finset.range 255) (Finset.Ioo 0 256) := fun i _ =>
    Finset.mem_coe.2 (Finset.mem_Ioo.2 ⟨(hpos _).1 (gfExp_ne_zero i), (gfExp i).isLt⟩)
  have hinj : Set.InjOn (fun i => (gfExp i).toNat) (Finset.range 255) := fun i hi j hj h =>
    gfExp_injOn (Finset.mem_range.1 hi) (Finset.mem_range.1 hj) (BitVec.eq_of_toNat_eq h)
  have hcard : (Finset.Ioo 0 256).card ≤ (Finset.range 255).card := by simp
  obtain ⟨i, -, hi⟩ := Finset.surjOn_of_injOn_of_card_le _ hmaps hinj hcard
    (Finset.mem_coe.2 (Finset.mem_Ioo.2 ⟨(hpos a).1 ha, a.isLt⟩))
  exact ⟨i, BitVec.eq_of_toNat_eq hi⟩

/-! ### Inverses (R71, R72) -/

theorem exists_gfMul_eq_one {a : Byte} (ha : a ≠ 0#8) : ∃ b, gfMul a b = 1#8 := by
  obtain ⟨i, rfl⟩ := exists_gfExp_eq ha
  exact exists_gfMul_gfExp_eq_one i

theorem gfMul_eq_zero {a b : Byte} (h : gfMul a b = 0#8) : a = 0#8 ∨ b = 0#8 := by
  refine or_iff_not_imp_left.2 fun ha => ?_
  obtain ⟨c, hc⟩ := exists_gfMul_eq_one ha
  calc b = gfMul (gfMul a c) b := by rw [hc, one_gfMul]
    _ = gfMul c (gfMul a b) := by rw [gfMul_comm a c, gfMul_assoc]
    _ = 0#8 := by rw [h, gfMul_zero]

end Sys2Proof.Machine

/-! The statements about the field, settled. -/

namespace Sys2Proof.Proofs

open Sys2Proof.Machine Sys2Proof.Safety

/-- Settles O18: the answer is `gf_add`, which is the exclusive or. -/
theorem gfaddAnswersTheExclusiveOr : Obligations.GfaddAnswersTheExclusiveOr :=
  fun _ _ _ => exec_gfadd

/-- Settles O19: `gf_mul` multiplies residues, and a byte is its own remainder. -/
theorem gfmulIsTheProductModuloPoly : Obligations.GfmulIsTheProductModuloPoly := by
  refine fun a b s hs => ⟨gfMul a b, exec_gfmul hs, fun p q hp hq => ?_, ?_⟩
  · obtain rfl := (represents_iff a p).1 hp
    obtain rfl := (represents_iff b q).1 hq
    exact (represents_iff _ _).2 (polyOf_gfMul a b).symm
  · rintro (rfl | rfl)
    · exact zero_gfMul b
    · exact gfMul_zero a

/-- Settles O20: the laws of a commutative ring hold of the residues, and a factor with an inverse can be cancelled. -/
theorem fieldLaws : Obligations.FieldLaws :=
  ⟨gfAdd_comm, gfMul_comm, gfAdd_assoc, gfMul_assoc, gfAdd_zero, gfAdd_self, gfMul_one, gfMul_zero, gfMul_gfAdd,
    fun _ _ => gfMul_eq_zero⟩

/-- Settles O21: multiplying by 2 is multiplying by x, and every element that is not zero is a power of it. -/
theorem doublingAndInverses : Obligations.DoublingAndInverses :=
  ⟨fun b => (gfMul_comm alpha b).trans ((gfMul_alpha b).trans (shiftReduce_eq b)), fun _ => exists_gfMul_eq_one⟩

/-- Settles O22: the powers are those of x among the residues, whose order is 255. -/
theorem powersOfTheGeneratorElement : Obligations.PowersOfTheGeneratorElement :=
  ⟨fun i wk => congrArg Work.power (Work.runPower_eq i wk), fun _ => gfExp_eq_expTable,
    fun _ _ hi hj h => gfExp_injOn hi hj h, gfExp_ne_zero, gfExp_add_period⟩

end Sys2Proof.Proofs

/-! Generator polynomials (R80 to R82): a coefficient list as a polynomial over the ring of residues, `poly_mul` and
`product` as multiplication there, and the generator as the product of its factors. -/

namespace Sys2Proof.Machine

open Sys2Proof.Safety Polynomial

/-! ### Coefficient lists as polynomials -/

/-- The polynomial over the ring of residues with the listed coefficients (R24). -/
noncomputable def residuePoly (l : Coeffs) : (AdjoinRoot modulus)[X] :=
  ∑ i ∈ Finset.range l.length, C (residue (l.getD i 0#8)) * X ^ i

@[simp] theorem coeff_residuePoly (l : Coeffs) (n : Nat) : (residuePoly l).coeff n = residue (l.getD n 0#8) := by
  simp only [residuePoly, finsetSum_coeff, coeff_C_mul_X_pow, Finset.sum_ite_eq, Finset.mem_range]
  split_ifs with h
  · rfl
  · rw [List.getD_eq_default _ _ (not_lt.1 h), residue_zero]

theorem residuePoly_cons (c : Byte) (l : Coeffs) : residuePoly (c :: l) = C (residue c) + X * residuePoly l := by
  ext n
  cases n <;> simp [coeff_C_succ]

theorem residue_evalAt (l : Coeffs) (x : Byte) : residue (evalAt l x) = (residuePoly l).eval (residue x) := by
  induction l with
  | nil => simp [evalAt, residuePoly]
  | cons c l ih =>
    rw [residuePoly_cons, eval_add, eval_C, eval_mul, eval_X, ← ih, mul_comm, ← residue_gfMul, ← residue_gfAdd]
    rfl

/-- A coefficient of a product, term by term of the first factor. -/
theorem coeff_residuePoly_mul (l : Coeffs) (r : (AdjoinRoot modulus)[X]) (n : Nat) :
    (residuePoly l * r).coeff n =
      ∑ i ∈ Finset.range l.length, residue (l.getD i 0#8) * if i ≤ n then r.coeff (n - i) else 0 := by
  simp only [residuePoly, Finset.sum_mul, finsetSum_coeff, mul_assoc, coeff_C_mul, coeff_X_pow_mul']

/-! ### `product` multiplies -/

theorem product_length (l m : Coeffs) : (product l m).length = l.length + m.length - 1 := by simp [product]

theorem product_getD (l m : Coeffs) {n : Nat} (hn : n < l.length + m.length - 1) :
    (product l m).getD n 0#8 = productCoeff l m n := by
  simp [product, hn]

theorem residue_foldl_gfAdd (f : Nat → Byte) (n : Nat) :
    residue (((List.range n).map f).foldl gfAdd 0#8) = ∑ i ∈ Finset.range n, residue (f i) := by
  induction n with
  | zero => exact residue_zero
  | succ n ih => simp [List.range_succ, Finset.sum_range_succ, ih]

theorem residue_productCoeff (l m : Coeffs) (n : Nat) :
    residue (productCoeff l m n) = (residuePoly l * residuePoly m).coeff n := by
  rw [productCoeff, residue_foldl_gfAdd, coeff_mul, Finset.Nat.sum_antidiagonal_eq_sum_range_succ_mk]
  simp

/-- Beyond the length of the product, one of the two factors has run out in every term. -/
theorem residuePoly_product (l m : Coeffs) : residuePoly (product l m) = residuePoly l * residuePoly m := by
  ext n
  rw [coeff_residuePoly]
  by_cases hn : n < l.length + m.length - 1
  · rw [product_getD l m hn, residue_productCoeff]
  · rw [List.getD_eq_default _ _ (by rw [product_length]; omega), residue_zero, coeff_residuePoly_mul]
    refine (Finset.sum_eq_zero fun i hi => ?_).symm
    have hil := Finset.mem_range.1 hi
    split_ifs
    · rw [coeff_residuePoly, List.getD_eq_default m _ (by omega), residue_zero, mul_zero]
    · exact mul_zero _

/-! ### `poly_mul` multiplies (R80) -/

/-- One row adds `p[i]` times `q`, shifted by `i`: beyond the length of `q` its coefficients are zero. -/
theorem Work.residue_mulRow_coeff (p q : Poly) (wk : Work) {n : Nat} (hn : n < wk.prod.size) :
    residue ((wk.mulRow p q).prod.coeff n) = residue (wk.prod.coeff n) + residue (p.coeff wk.mulI) *
      if wk.mulI ≤ n then residue (q.coeff (n - wk.mulI)) else 0 := by
  rw [Work.mulRow_coeff p q wk hn]
  by_cases hle : wk.mulI ≤ n
  · by_cases hlt : n < wk.mulI + q.size
    · simp [hle, hlt]
    · have hq : q.coeff (n - wk.mulI) = 0#8 := List.getD_eq_default _ _ (by rw [Poly.coeffs_length]; omega)
      simp [hle, hlt, hq]
  · simp [hle]

/-- After `m` rows the product register holds the terms of the first `m` coefficients of `p`. -/
theorem Work.residue_mulRow_iterate_coeff (p q : Poly) (wk : Work) {m n : Nat} (hm : m ≤ p.size)
    (hn : n < p.higher.length + q.higher.length + 1) :
    residue (((Work.mulRow p q)^[m]
        { wk with prod := Poly.zeros (p.higher.length + q.higher.length), mulI := 0 }).prod.coeff n) =
      ∑ i ∈ Finset.range m, residue (p.coeff i) * if i ≤ n then residue (q.coeff (n - i)) else 0 := by
  induction m with
  | zero => rw [Function.iterate_zero_apply, Poly.coeff_zeros, residue_zero, Finset.sum_range_zero]
  | succ m ih =>
    obtain ⟨hi, hsize, -⟩ := Work.mulRow_iterate_top p q wk (Nat.le_of_succ_le_succ hm)
    rw [Function.iterate_succ_apply', Work.residue_mulRow_coeff p q _ (by omega), hi, ih (by omega),
      Finset.sum_range_succ]

theorem Work.residue_polyMul_coeff (p q : Poly) (wk : Work) {n : Nat} (hn : n < p.higher.length + q.higher.length + 1) :
    residue ((wk.polyMul p q).prod.coeff n) = (residuePoly p.coeffs * residuePoly q.coeffs).coeff n := by
  rw [coeff_residuePoly_mul, Work.polyMul, Work.residue_mulRow_iterate_coeff p q wk le_rfl hn]
  simp only [coeff_residuePoly, Poly.coeffs_length, Poly.coeff]

/-- `poly_mul` leaves the convolution of its operands in the product register. -/
theorem Work.polyMul_coeffs (p q : Poly) (wk : Work) :
    (wk.polyMul p q).prod.coeffs = product p.coeffs q.coeffs := by
  obtain ⟨-, -, -, hsize⟩ := Work.polyMul_keeps p q wk
  have hlen : (product p.coeffs q.coeffs).length = p.size + q.size - 1 := product_length _ _
  refine List.ext_getElem (hsize.trans hlen.symm) fun n hl hm => residue_injective ?_
  have hn : n < p.size + q.size - 1 := hlen ▸ hm
  rw [← List.getD_eq_getElem _ 0#8 hl, ← List.getD_eq_getElem _ 0#8 hm, product_getD _ _ hn, residue_productCoeff]
  exact Work.residue_polyMul_coeff p q wk (by simp only [Poly.size] at hn; omega)

/-! ### The generator (R81, R82) -/

theorem Work.buildGenerator_coeffs (k : Nat) (wk : Work) : (wk.buildGenerator k).g.coeffs = generator k := by
  induction k with
  | zero => rfl
  | succ k ih =>
    rw [Work.buildGenerator_succ, (Work.nextFactor_g _).1, Work.polyMul_coeffs, ih,
      (Work.buildGenerator_counts k wk).1]
    rfl

/-- With `K` not zero `GENPOLY` answers the generator register. -/
theorem exec_genpoly_of_ne_zero {k : Byte} {s : State} (hs : s.operand = .none) (hk : k ≠ 0#8) :
    exec (.genpoly k) s = .next (s.respond (.ok (.generator (s.work.buildGenerator k.toNat).g))) := by
  have hpos : k.toNat ≠ 0 := BitVec.toNat_ne_iff_ne.2 hk
  rw [exec_genpoly hs, genpolyResult, if_neg hpos]

theorem residuePoly_generator (k : Nat) :
    residuePoly (generator k) = ∏ i ∈ Finset.range k, (X + C (AdjoinRoot.root modulus ^ i)) := by
  induction k with
  | zero => simp [generator, residuePoly]
  | succ k ih =>
    have hfactor : residuePoly [gfExp k, 1#8] = X + C (AdjoinRoot.root modulus ^ k) := by
      simp [residuePoly, Finset.sum_range_succ, residue_gfExp, add_comm]
    rw [generator, residuePoly_product, ih, hfactor, Finset.prod_range_succ]

/-- At `α^i` the factor `x + α^i` is zero. -/
theorem evalAt_generator {k i : Nat} (hi : i < k) : evalAt (generator k) (gfExp i) = 0#8 := by
  have hroot : (X + C (AdjoinRoot.root modulus ^ i)).eval (residue (gfExp i)) = 0 := by
    rw [eval_add, eval_X, eval_C, ← residue_gfExp, ← residue_gfAdd, gfAdd_self, residue_zero]
  refine residue_injective ?_
  rw [residue_evalAt, residuePoly_generator, eval_prod, Finset.prod_eq_zero (Finset.mem_range.2 hi) hroot, residue_zero]

/-- The constant term is the product of the `α^i`, whose exponents add up to `k*(k-1)/2`. -/
theorem generator_getD_zero (k : Nat) : (generator k).getD 0 0#8 = gfExp (k * (k - 1) / 2 % 255) := by
  refine residue_injective ?_
  calc residue ((generator k).getD 0 0#8)
      = ∏ i ∈ Finset.range k, AdjoinRoot.root modulus ^ i := by
        rw [← coeff_residuePoly, residuePoly_generator, coeff_zero_prod]
        simp only [coeff_add, coeff_X_zero, coeff_C_zero, zero_add]
    _ = AdjoinRoot.root modulus ^ (k * (k - 1) / 2) := by rw [Finset.prod_pow_eq_pow_sum, Finset.sum_range_id]
    _ = residue (gfExp (k * (k - 1) / 2 % 255)) := by rw [residue_gfExp, ← orderOf_root, pow_mod_orderOf]

set_option maxRecDepth 2000 in
/-- The printed row of rule R83, by running the loop of rule R81. -/
theorem generator_ten :
    generator 10 = [0xC1, 0x9D, 0x71, 0x5F, 0x5E, 0xC7, 0x6F, 0x9F, 0xC2, 0xD8, 0x01] := by decide

end Sys2Proof.Machine

/-! The statements about generator polynomials, settled. -/

namespace Sys2Proof.Proofs

open Sys2Proof.Machine Sys2Proof.Safety

/-- Settles O23: row by row, the product register gathers the terms of the convolution. -/
theorem polyMulIsTheConvolution : Obligations.PolyMulIsTheConvolution := by
  intro p q wk
  obtain ⟨hg, hfactor, hpower, -⟩ := Work.polyMul_keeps p q wk
  exact ⟨Work.polyMul_coeffs p q wk, hg, hfactor, hpower⟩

/-- Settles O24: the generator register gathers the factors one `poly_mul` at a time. -/
theorem genpolyBuildsTheGenerator : Obligations.GenpolyBuildsTheGenerator := by
  refine fun k s hs => ⟨?_, fun hk => ⟨_, exec_genpoly_of_ne_zero hs hk, Work.buildGenerator_coeffs _ _⟩⟩
  rintro rfl
  exact exec_genpoly hs

/-- Settles O25: length and leading coefficient are those of the generator register, the constant term and the roots
those of the product of the factors. -/
theorem generatorIsMonicWithTheRoots : Obligations.GeneratorIsMonicWithTheRoots := by
  intro k s hk hs
  have hcoeffs := Work.buildGenerator_coeffs k.toNat s.work
  have hconst : (s.work.buildGenerator k.toNat).g.constTerm = gfExp (k.toNat * (k.toNat - 1) / 2 % 255) := by
    rw [← generator_getD_zero, ← hcoeffs, Poly.coeffs, List.getD_cons_zero]
  refine ⟨_, exec_genpoly_of_ne_zero hs hk, (Work.buildGenerator_counts k.toNat s.work).2,
    Work.buildGenerator_monic k.toNat s.work, hconst, ?_, fun i hi => ?_⟩
  · rw [hconst]
    exact gfExp_ne_zero _
  · rw [hcoeffs]
    exact evalAt_generator hi

/-- Settles O26: the coefficients of the generator register are those of the printed row. -/
theorem generatorOfTen : Obligations.GeneratorOfTen := by
  intro s hs
  have hg : (s.work.buildGenerator (10#8).toNat).g =
      { constTerm := 0xC1, higher := [0x9D, 0x71, 0x5F, 0x5E, 0xC7, 0x6F, 0x9F, 0xC2, 0xD8, 0x01] } :=
    Poly.coeffs_inj.1 ((Work.buildGenerator_coeffs _ _).trans generator_ten)
  rw [exec_genpoly_of_ne_zero hs (by decide), hg]

end Sys2Proof.Proofs

/-! The Reed-Solomon encoder (R90 to R92): long division as the working registers run it, the same division among
polynomials over the ring of residues, and what follows for the codewords of `RSENC` and `ENCSYM`. -/

namespace Sys2Proof.Machine

open Sys2Proof.Safety Polynomial

/-! ### The generator as a divisor, highest degree first -/

theorem generator_length (k : Nat) : (generator k).length = k + 1 := by
  rw [← Work.buildGenerator_coeffs k Work.discarded, Poly.coeffs_length, (Work.buildGenerator_counts k _).2]

/-- The generator is monic (R82). -/
theorem generator_reverse (k : Nat) : (generator k).reverse = 1#8 :: (generator k).reverse.tail := by
  have hdeg : (Work.discarded.buildGenerator k).g.higher.length = k :=
    Nat.succ.inj (Work.buildGenerator_counts k Work.discarded).2
  have hlead : (generator k).reverse.head? = some 1#8 := by
    rw [List.head?_reverse, ← Work.buildGenerator_coeffs k Work.discarded, Poly.getLast?_coeffs, hdeg,
      Work.buildGenerator_monic]
  exact List.eq_cons_of_mem_head? hlead

/-! ### The divider runs the long division (R90) -/

@[simp] theorem addFront_nil (b : ByteSeq) : addFront b [] = b := by
  cases b <;> rfl

@[simp] theorem addFront_length (b t : ByteSeq) : (addFront b t).length = b.length := by
  induction b generalizing t with
  | nil => rfl
  | cons c cs ih => cases t <;> simp [addFront, ih]

@[simp] theorem addFront_replicate_zero (b : ByteSeq) (n : Nat) : addFront b (List.replicate n 0#8) = b := by
  induction b generalizing n with
  | nil => rfl
  | cons c cs ih => cases n <;> simp [addFront, List.replicate_succ, ih]

/-- A leading coefficient of zero adds nothing, so the division may skip it. -/
theorem remainder_succ_cons (lower : ByteSeq) (n : Nat) (c : Byte) (rest : ByteSeq) :
    remainder lower (n + 1) (c :: rest) = remainder lower n (addFront rest (lower.map fun g => gfMul g c)) := by
  rw [remainder]
  split_ifs with hc
  · simp [hc]
  · rfl

/-- The taps that are left add the coefficients of `G` that are left, scaled by the leading coefficient. -/
theorem Work.divTap_iterate {k : Nat} {gs pre buf : ByteSeq} {wk : Work} (hg : wk.g.size = k + 1)
    (hgs : wk.g.coeffs.reverse.drop wk.tap = gs) (hw : wk.w = pre ++ buf) (hpos : wk.pos + wk.tap = pre.length)
    (hlen : gs.length ≤ buf.length) :
    ((Work.divTap k)^[gs.length] wk).w = pre ++ addFront buf (gs.map fun g => gfMul g wk.lead) := by
  induction gs generalizing pre buf wk with
  | nil => simpa using hw
  | cons x gs ih =>
    cases buf with
    | nil => cases hlen
    | cons b bs =>
      have hx : wk.g.coeff (k - wk.tap) = x := by
        have hleft : k + 1 - wk.tap = gs.length + 1 := by simpa [hg] using congrArg List.length hgs
        have hlt : wk.tap < k + 1 := by omega
        have hhead := congrArg (·.getD 0 0#8) hgs
        simpa [hg, hlt, Poly.coeff] using hhead
      have hset : (wk.divTap k).w = (pre ++ [gfAdd b (gfMul x wk.lead)]) ++ bs := by
        simp [Work.divTap, hx, hw, hpos]
      have hrest : (wk.divTap k).g.coeffs.reverse.drop (wk.divTap k).tap = gs := by
        simpa [Work.divTap] using congrArg List.tail hgs
      rw [List.length_cons, Function.iterate_succ_apply,
        ih (wk := wk.divTap k) hg hrest hset (by simp [Work.divTap, ← hpos, Nat.add_assoc]) (by simpa using hlen)]
      simp [addFront, Work.divTap]

/-- One division step takes the leading coefficient to zero and adds the divisor's lower coefficients, scaled by it, to
what follows. -/
theorem Work.divPosition_w {k : Nat} {lower pre rest : ByteSeq} {c : Byte} {wk : Work} (hg : wk.g.size = k + 1)
    (hmonic : wk.g.coeffs.reverse = 1#8 :: lower) (hw : wk.w = pre ++ c :: rest) (hpos : wk.pos = pre.length)
    (hlen : k ≤ rest.length) :
    (wk.divPosition k).w = pre ++ 0#8 :: addFront rest (lower.map fun g => gfMul g c) := by
  have hlower : lower.length + 1 = k + 1 := by simpa [hg] using (congrArg List.length hmonic).symm
  have hc : wk.w.getD wk.pos 0#8 = c := by simp [hw, hpos]
  unfold Work.divPosition
  rw [hc]
  by_cases hzero : c ≠ 0#8
  · have htaps := Work.divTap_iterate (gs := 1#8 :: lower) (wk := { wk with lead := c, tap := 0 }) hg hmonic hw hpos
      (by rw [List.length_cons, List.length_cons]; omega)
    rw [List.length_cons, hlower] at htaps
    simp only [if_pos hzero, htaps]
    simp [addFront]
  · simp [not_not.1 hzero, hw]

/-- Division steps leave the remainder of the long division behind the positions they pass. -/
theorem Work.divPosition_iterate {k : Nat} {lower pre buf : ByteSeq} {wk : Work} {n : Nat} (hg : wk.g.size = k + 1)
    (hmonic : wk.g.coeffs.reverse = 1#8 :: lower) (hw : wk.w = pre ++ buf) (hpos : wk.pos = pre.length)
    (hlen : buf.length = n + k) :
    ((Work.divPosition k)^[n] wk).w.drop (pre.length + n) = remainder lower n buf := by
  induction n generalizing pre buf wk with
  | zero => simp [hw, remainder]
  | succ n ih =>
    cases buf with
    | nil =>
      rw [List.length_nil] at hlen
      omega
    | cons c rest =>
      obtain ⟨hkeep, -, hnext⟩ := wk.divPosition_keeps k
      rw [List.length_cons] at hlen
      have hw' := Work.divPosition_w hg hmonic hw hpos (by omega)
      rw [remainder_succ_cons, Function.iterate_succ_apply,
        ← ih (wk := wk.divPosition k) (pre := pre ++ [0#8]) (by rw [hkeep, hg]) (by rw [hkeep, hmonic])
          (by rw [hw', List.append_assoc]; rfl) (by rw [hnext, hpos, List.length_append]; rfl)
          (by rw [addFront_length]; omega)]
      rw [List.length_append, List.length_singleton, Nat.add_assoc, Nat.add_comm 1]

/-- The encoder answers the data and the remainder of the long division. -/
theorem rsEncode_eq_systematic (d : ByteSeq) (k : Nat) (wk : Work) : rsEncode d k wk = systematic d k := by
  have hmonic : (wk.buildGenerator k).g.coeffs.reverse = 1#8 :: (generator k).reverse.tail := by
    rw [Work.buildGenerator_coeffs]
    exact generator_reverse k
  have hrem : (wk.rsDivide d k).w.drop d.length =
      remainder (generator k).reverse.tail d.length (d ++ List.replicate k 0#8) := by
    simpa [Work.rsDivide] using Work.divPosition_iterate (pre := []) (n := d.length)
      (wk := { wk.buildGenerator k with w := d ++ List.replicate k 0#8, pos := 0 })
      (Work.buildGenerator_counts k wk).2 hmonic rfl rfl (by simp)
  rw [rsEncode, systematic, ← hrem, List.take_of_length_le]
  simp [Work.rsDivide_length]

/-! ### The same division among polynomials -/

/-- A codeword sequence as a polynomial over the ring of residues, highest degree first (R19). -/
noncomputable def codewordPoly (cw : ByteSeq) : (AdjoinRoot modulus)[X] := residuePoly cw.reverse

theorem residuePoly_append (l m : Coeffs) : residuePoly (l ++ m) = residuePoly l + X ^ l.length * residuePoly m := by
  induction l with
  | nil => simp [residuePoly]
  | cons c l ih =>
    rw [List.cons_append, residuePoly_cons, residuePoly_cons, ih, List.length_cons]
    ring

@[simp] theorem codewordPoly_nil : codewordPoly [] = 0 := by simp [codewordPoly, residuePoly]

theorem codewordPoly_append (a b : ByteSeq) :
    codewordPoly (a ++ b) = codewordPoly a * X ^ b.length + codewordPoly b := by
  rw [codewordPoly, List.reverse_append, residuePoly_append, List.length_reverse, codewordPoly, codewordPoly]
  ring

theorem codewordPoly_cons (c : Byte) (l : ByteSeq) :
    codewordPoly (c :: l) = C (residue c) * X ^ l.length + codewordPoly l := by
  rw [← List.singleton_append, codewordPoly_append]
  simp [codewordPoly, residuePoly]

@[simp] theorem codewordPoly_replicate_zero (k : Nat) : codewordPoly (List.replicate k 0#8) = 0 := by
  induction k with
  | zero => exact codewordPoly_nil
  | succ k ih => simp [List.replicate_succ, codewordPoly_cons, ih]

theorem codewordPoly_map_gfMul (t : ByteSeq) (c : Byte) :
    codewordPoly (t.map fun g => gfMul g c) = C (residue c) * codewordPoly t := by
  induction t with
  | nil => simp
  | cons g t ih =>
    rw [List.map_cons, codewordPoly_cons, codewordPoly_cons, ih, residue_gfMul, C_mul, List.length_map]
    ring

theorem codewordPoly_addFront {b t : ByteSeq} {n : Nat} (hlen : b.length = n + t.length) :
    codewordPoly (addFront b t) = codewordPoly b + X ^ n * codewordPoly t := by
  induction t generalizing b with
  | nil => simp
  | cons u us ih =>
    cases b with
    | nil => simp at hlen
    | cons c cs =>
      have hcs : cs.length = n + us.length := by simpa [← Nat.add_assoc] using hlen
      rw [addFront, codewordPoly_cons, codewordPoly_cons, codewordPoly_cons, ih hcs, residue_gfAdd, C_add,
        addFront_length, hcs]
      ring

/-- The coefficients are residues modulo 2. -/
theorem codewordPoly_add_self (cw : ByteSeq) : codewordPoly cw + codewordPoly cw = 0 := by
  ext n
  rw [coeff_add, codewordPoly, coeff_residuePoly, ← residue_gfAdd, gfAdd_self, residue_zero, coeff_zero]

theorem eq_of_residuePoly_eq {a b : ByteSeq} (hlen : a.length = b.length) (h : residuePoly a = residuePoly b) :
    a = b := by
  refine List.ext_getElem hlen fun n ha hb => residue_injective ?_
  rw [← List.getD_eq_getElem _ 0#8 ha, ← List.getD_eq_getElem _ 0#8 hb, ← coeff_residuePoly, ← coeff_residuePoly, h]

/-- Long division by a monic divisor: the leading coefficients taken in turn are those of the quotient. -/
theorem exists_quotient {lower buf : ByteSeq} {n : Nat} (hlen : buf.length = n + lower.length) :
    ∃ q : ByteSeq, q.length = n ∧
      codewordPoly buf = codewordPoly q * codewordPoly (1#8 :: lower) + codewordPoly (remainder lower n buf) := by
  induction n generalizing buf with
  | zero => exact ⟨[], rfl, by simp [remainder]⟩
  | succ n ih =>
    cases buf with
    | nil =>
      rw [List.length_nil] at hlen
      omega
    | cons c rest =>
      have hrest : rest.length = n + lower.length := by rw [List.length_cons] at hlen; omega
      obtain ⟨q, hq, hdiv⟩ := ih (buf := addFront rest (lower.map fun g => gfMul g c)) (by simpa using hrest)
      rw [codewordPoly_addFront (by simpa using hrest), codewordPoly_map_gfMul] at hdiv
      refine ⟨c :: q, by rw [List.length_cons, hq], ?_⟩
      have hdivisor : codewordPoly (1#8 :: lower) = X ^ lower.length + codewordPoly lower := by
        rw [codewordPoly_cons, residue_one, C_1, one_mul]
      rw [hdivisor] at hdiv ⊢
      rw [remainder_succ_cons, codewordPoly_cons, codewordPoly_cons, hq, hrest]
      linear_combination hdiv - C (residue c) * X ^ n * codewordPoly_add_self lower

@[simp] theorem remainder_length {lower buf : ByteSeq} {n : Nat} (hlen : n ≤ buf.length) :
    (remainder lower n buf).length = buf.length - n := by
  induction n generalizing buf with
  | zero => rfl
  | succ n ih =>
    cases buf with
    | nil => cases hlen
    | cons c rest =>
      rw [remainder_succ_cons, ih (by simpa using hlen)]
      simp

/-! ### Codewords (R92) -/

theorem systematic_length (d : ByteSeq) (k : Nat) : (systematic d k).length = d.length + k := by
  rw [← rsEncode_eq_systematic d k Work.discarded, (rsEncode_shape d k _).1]

theorem systematic_take (d : ByteSeq) (k : Nat) : (systematic d k).take d.length = d := List.take_left

/-- A codeword is a multiple of the generator: the remainder added to the shifted data cancels what the division
leaves. -/
theorem exists_systematic_eq_product (d : ByteSeq) (k : Nat) :
    ∃ q : Coeffs, q.length = d.length ∧ (systematic d k).reverse = product q (generator k) := by
  obtain ⟨q, hq, hdiv⟩ := exists_quotient (lower := (generator k).reverse.tail)
    (buf := d ++ List.replicate k 0#8) (n := d.length) (by simp [generator_length])
  rw [← generator_reverse, codewordPoly_append, List.length_replicate, codewordPoly_replicate_zero, add_zero] at hdiv
  refine ⟨q.reverse, by rw [List.length_reverse, hq], eq_of_residuePoly_eq ?_ ?_⟩
  · rw [List.length_reverse, systematic_length, product_length, List.length_reverse, hq, generator_length]
    rfl
  · have hrem : (remainder (generator k).reverse.tail d.length (d ++ List.replicate k 0#8)).length = k := by simp
    rw [residuePoly_product]
    calc codewordPoly (systematic d k)
        = codewordPoly q * codewordPoly (generator k).reverse := by
          rw [systematic, codewordPoly_append, hrem, hdiv, add_assoc, codewordPoly_add_self, add_zero]
      _ = residuePoly q.reverse * residuePoly (generator k) := by
          rw [codewordPoly, codewordPoly, List.reverse_reverse]

theorem evalCodewords_eq_evalAt_reverse (cw : ByteSeq) (x : Byte) : evalCodewords cw x = evalAt cw.reverse x := by
  simp only [evalCodewords, evalAt, List.foldr_reverse, gfAdd_comm]

theorem evalAt_product (l m : Coeffs) (x : Byte) : evalAt (product l m) x = gfMul (evalAt l x) (evalAt m x) := by
  refine residue_injective ?_
  rw [residue_gfMul, residue_evalAt, residue_evalAt, residue_evalAt, residuePoly_product, eval_mul]

theorem evalCodewords_systematic (d : ByteSeq) {k i : Nat} (hi : i < k) :
    evalCodewords (systematic d k) (gfExp i) = 0#8 := by
  obtain ⟨q, -, hq⟩ := exists_systematic_eq_product d k
  rw [evalCodewords_eq_evalAt_reverse, hq, evalAt_product, evalAt_generator hi, gfMul_zero]

/-- At `α^0 = 1` a codeword's value is the sum of all its codewords. -/
theorem evalCodewords_one (cw : ByteSeq) : evalCodewords cw 1#8 = cw.foldl gfAdd 0#8 := by
  simp only [evalCodewords, gfMul_one]

theorem gfAdd_eq_zero {a b : Byte} : gfAdd a b = 0#8 ↔ a = b := BitVec.xor_eq_zero_iff

/-- With one error-correction codeword the only root is 1, where the codewords add up to zero. -/
theorem systematic_one (d : ByteSeq) : systematic d 1 = d ++ [d.foldl gfAdd 0#8] := by
  obtain ⟨r, hr⟩ : ∃ r, remainder (generator 1).reverse.tail d.length (d ++ List.replicate 1 0#8) = [r] :=
    List.length_eq_one_iff.1 (by simp)
  have hroot := evalCodewords_systematic d (k := 1) one_pos
  rw [systematic, hr, gfExp, evalCodewords_one, List.foldl_concat, gfAdd_eq_zero] at hroot
  rw [systematic, hr, hroot]

/-! ### The encoder is linear (R92) -/

theorem gfAdd_gfAdd_gfAdd_comm (a b c d : Byte) : gfAdd (gfAdd a b) (gfAdd c d) = gfAdd (gfAdd a c) (gfAdd b d) :=
  residue_injective (by simp only [residue_gfAdd, add_add_add_comm])

theorem addFront_zipWith {a b t u : ByteSeq} (hab : a.length = b.length) (htu : t.length = u.length) :
    addFront (a.zipWith gfAdd b) (t.zipWith gfAdd u) = (addFront a t).zipWith gfAdd (addFront b u) := by
  induction a generalizing b t u with
  | nil => rfl
  | cons x a ih =>
    cases b with
    | nil => cases hab
    | cons y b =>
      cases t with
      | nil =>
        cases u with
        | nil => simp
        | cons w u => cases htu
      | cons v t =>
        cases u with
        | nil => cases htu
        | cons w u =>
          simp [addFront, gfAdd_gfAdd_gfAdd_comm, ih (Nat.succ.inj hab) (Nat.succ.inj htu)]

theorem map_gfMul_gfAdd (l : ByteSeq) (x y : Byte) :
    l.map (fun g => gfMul g (gfAdd x y)) = (l.map fun g => gfMul g x).zipWith gfAdd (l.map fun g => gfMul g y) := by
  simp [List.zipWith_map, gfMul_gfAdd]

theorem remainder_zipWith {lower a b : ByteSeq} {n : Nat} (hab : a.length = b.length) :
    remainder lower n (a.zipWith gfAdd b) = (remainder lower n a).zipWith gfAdd (remainder lower n b) := by
  induction n generalizing a b with
  | zero => rfl
  | succ n ih =>
    cases a with
    | nil => rfl
    | cons x a =>
      cases b with
      | nil => cases hab
      | cons y b =>
        have hab' : a.length = b.length := Nat.succ.inj hab
        rw [List.zipWith_cons_cons, remainder_succ_cons, remainder_succ_cons, remainder_succ_cons, map_gfMul_gfAdd,
          addFront_zipWith hab' (by simp), ih (by simpa using hab')]

theorem systematic_zipWith {a b : ByteSeq} (hab : a.length = b.length) (k : Nat) :
    systematic (a.zipWith gfAdd b) k = (systematic a k).zipWith gfAdd (systematic b k) := by
  have hzeros : (List.replicate k 0#8).zipWith gfAdd (List.replicate k 0#8) = List.replicate k 0#8 := by simp
  have hlen : (a.zipWith gfAdd b).length = b.length := by simp [hab]
  rw [systematic, systematic, systematic, List.zipWith_append hab, hab, ← remainder_zipWith (by simp [hab]),
    List.zipWith_append hab, hzeros, hlen]

/-! ### `RSENC` and `ENCSYM` -/

theorem rsencResult_error {d : ByteSeq} {k : Nat} {c : Cause} (h : checkRs d.length k = .error c) (wk : Work) :
    rsencResult d k wk = .error c := by
  rw [rsencResult, h]

theorem rsencResult_ok {d : ByteSeq} {k : Nat} (h : checkRs d.length k = .ok ()) (wk : Work) :
    rsencResult d k wk = .ok (.codewords (systematic d k)) := by
  rw [rsencResult, h, ← rsEncode_eq_systematic d k wk]

/-- `RSENC` of operands that meet the preconditions of R91. -/
theorem exec_rsenc_ok {d : ByteSeq} {k : Byte} {s : State} (hs : s.operand = .data d) (hd : d ≠ []) (hk : k ≠ 0#8)
    (hlen : d.length + k.toNat ≤ 255) :
    exec (.rsenc k) s = .next (s.respond (.ok (.codewords (systematic d k.toNat)))) := by
  have hpos : k.toNat ≠ 0 := BitVec.toNat_ne_iff_ne.2 hk
  rw [exec_rsenc hs,
    rsencResult_ok (checkRs_ok.2 ⟨List.length_pos_of_ne_nil hd, Nat.pos_of_ne_zero hpos, hlen⟩)]

theorem answer_rsenc_done {d cw : ByteSeq} {k : Byte} {s : State} :
    answer (exec (.rsenc k) (asking s (.data d))) = some (.done (.codewords cw)) ↔
      checkRs d.length k.toNat = .ok () ∧ systematic d k.toNat = cw := by
  rw [exec_rsenc (State.asking_operand s (.data d))]
  simp only [answer, State.respond_response, State.asking_work, Option.some.injEq]
  cases hc : checkRs d.length k.toNat with
  | error c => simp [rsencResult_error hc, responseOf]
  | ok u => simp [rsencResult_ok hc, responseOf]

theorem answer_assemble_done {g : Segment} {l : ECLevel} {s : State} {done : Work}
    (h : s.work.assemble g l = .ok done) :
    answer (exec (.assemble l) (asking s (.seg g))) = some (.done (.codewords done.cwbuf)) := by
  rw [exec_assemble (State.asking_operand s (.seg g))]
  simp only [answer, State.respond_response, State.asking_work, assembleResult, h, responseOf]

/-- What a symbol is made of: the assembler's bytes, encoded (R130). -/
theorem encodeSymbolData_stages {k : Nat} {t : Text} {l : ECLevel} {wk : Work} {cw : ByteSeq}
    (h : encodeSymbolData k t l wk = .ok cw) :
    ∃ g done, encodeSegment t (classify t) l wk = .ok g ∧ wk.assemble g l = .ok done ∧
      cw = systematic done.cwbuf k := by
  unfold encodeSymbolData at h
  split at h
  · cases h
  next g hg =>
    split at h
    · cases h
    next done hdone =>
      split at h <;> cases h
      exact ⟨g, done, hg, hdone, rsEncode_eq_systematic _ _ _⟩

theorem answer_encsym_done {t : Text} {l : ECLevel} {s : State} {cw : ByteSeq} :
    answer (exec (.encsym l) (asking s (.text t))) = some (.done (.codewords cw)) ↔
      encodeSymbolData (nec l) t l s.work = .ok cw := by
  rw [exec_encsym (State.asking_operand s (.text t))]
  simp only [answer, State.respond_response, State.asking_work, encsymResult, Option.some.injEq]
  cases encodeSymbolData (nec l) t l s.work <;> simp [responseOf]

end Sys2Proof.Machine

/-! The statements about the Reed-Solomon encoder, settled. -/

namespace Sys2Proof.Proofs

open Sys2Proof.Machine Sys2Proof.Safety

/-- Settles O27: each clause is one branch of the check. -/
theorem rsencChecksItsPreconditions : Obligations.RsencChecksItsPreconditions := by
  intro d k s hs
  have hlen (hd : d ≠ []) : d.length ≠ 0 := mt List.length_eq_zero_iff.1 hd
  have hpos (hk : k ≠ 0#8) : k.toNat ≠ 0 := BitVec.toNat_ne_iff_ne.2 hk
  refine ⟨?_, ?_, ?_, fun hd hk hmax => ⟨_, exec_rsenc_ok hs hd hk hmax⟩⟩
  · rintro rfl
    rw [exec_rsenc hs, rsencResult_error rfl]
  · rintro hd rfl
    have hcheck : checkRs d.length 0 = .error .zeroEcCount := by rw [checkRs, if_neg (hlen hd), if_pos rfl]
    exact (exec_rsenc hs).trans (by rw [BitVec.toNat_zero, rsencResult_error hcheck])
  · intro hd hk hmax
    have hcheck : checkRs d.length k.toNat = .error (.fieldSizeOverflow (d.length + k.toNat)) := by
      rw [checkRs, if_neg (hlen hd), if_neg (hpos hk), maxRsSymbols, if_pos hmax]
    rw [exec_rsenc hs, rsencResult_error hcheck]

/-- Settles O28: the working buffer goes through the steps of the long division. -/
theorem rsencIsTheLongDivision : Obligations.RsencIsTheLongDivision :=
  fun _ _ _ => exec_rsenc_ok

/-- Settles O29: the division leaves a multiple of the generator, which has the generator's roots. -/
theorem rsencAnswersASystematicCodeword : Obligations.RsencAnswersASystematicCodeword :=
  fun d k _ hs hd hk hmax => ⟨systematic d k.toNat, exec_rsenc_ok hs hd hk hmax, systematic_length d _,
    systematic_take d _, exists_systematic_eq_product d _, fun _ => evalCodewords_systematic d⟩

/-- Settles O30: every step of the division is linear. -/
theorem rsencIsLinear : Obligations.RsencIsLinear := by
  intro s k d1 d2 c1 c2 hlen h1 h2
  obtain ⟨hcheck, rfl⟩ := answer_rsenc_done.1 h1
  obtain ⟨-, rfl⟩ := answer_rsenc_done.1 h2
  refine answer_rsenc_done.2 ⟨?_, systematic_zipWith hlen _⟩
  rwa [List.length_zipWith, ← hlen, Nat.min_self]

/-- Settles O31: the one root of the codeword is 1. -/
theorem singleEcCodewordIsTheExclusiveOr : Obligations.SingleEcCodewordIsTheExclusiveOr := by
  intro d s hs hd hmax
  rw [← systematic_one]
  exact exec_rsenc_ok hs hd (by decide) (Nat.succ_le_succ hmax)

/-- Settles O49: the last stage is the Reed-Solomon encoder, on the bytes of the assembler. -/
theorem encsymAnswersACodeword : Obligations.EncsymAnswersACodeword := by
  intro t l s cw h
  obtain ⟨g, done, hg, hdone, rfl⟩ := encodeSymbolData_stages (answer_encsym_done.1 h)
  have hlen : done.cwbuf.length = capacity l := Work.assemble_length hdone
  refine ⟨by rw [systematic_length, hlen], ⟨classify t, g, ?_, answer_segenc_done.2 hg, ?_⟩,
    fun _ => evalCodewords_systematic _⟩
  · rw [exec_classify (State.asking_operand s (.text t))]
    rfl
  · rw [← hlen, systematic_take]
    exact answer_assemble_done hdone

end Sys2Proof.Proofs

/-! The mode classifier by its precedence order (R100), and the errors of the segment encoder that end `ENCSYM`
(R112, R116, R132). -/

namespace Sys2Proof.Machine

open Sys2Proof.Safety

/-! ### The tests on one character -/

@[simp] theorem isDigit_iff (c : CodePoint) : isDigit c = true ↔ IsDigit c := by
  simp only [isDigit, Bool.and_eq_true, decide_eq_true_eq]

/-- The printed table has an index exactly for the characters of its rows (R58). -/
theorem tableIndex_isSome_iff (c : CodePoint) : (tableIndex c).isSome = true ↔ IsAlnum c := by
  unfold tableIndex
  split_ifs with hdigit hletter
  · exact iff_of_true rfl (.inl hdigit)
  · exact iff_of_true rfl (.inr (.inl hletter))
  · simp only [IsAlnum, IsDigit, hdigit, hletter, false_or, List.mem_cons, List.not_mem_nil, or_false]
    split <;> simp_all

@[simp] theorem isAlnum_iff (c : CodePoint) : isAlnum c = true ↔ IsAlnum c := by
  rw [isAlnum, alnumIndex_eq_tableIndex, tableIndex_isSome_iff]

/-! ### The precedence order -/

theorem classify_numeric {t : Text} (h : ∀ c ∈ t, IsDigit c) : classify t = .numeric :=
  if_pos (by simpa using h)

theorem classify_of_not_digits {t : Text} (h : ¬ ∀ c ∈ t, IsDigit c) :
    classify t = if t.all isAlnum then .alphanumeric else if t.any isKanjiClass then .kanji else .byte :=
  if_neg (by simpa using h)

theorem classify_alphanumeric {t : Text} (h : ∀ c ∈ t, IsAlnum c) (hd : ¬ ∀ c ∈ t, IsDigit c) :
    classify t = .alphanumeric :=
  (classify_of_not_digits hd).trans (if_pos (by simpa using h))

/-- Digits are of the alphabet, so a text with a character outside it passes neither of the first two tests. -/
theorem classify_of_not_alnum {t : Text} (h : ¬ ∀ c ∈ t, IsAlnum c) :
    classify t = if t.any isKanjiClass then .kanji else .byte :=
  (classify_of_not_digits fun hd => h fun c hc => .inl (hd c hc)).trans (if_neg (by simpa using h))

theorem classify_kanji {t : Text} (h : ¬ ∀ c ∈ t, IsAlnum c) (hk : ∃ c ∈ t, isKanjiClass c = true) :
    classify t = .kanji :=
  (classify_of_not_alnum h).trans (if_pos (List.any_eq_true.2 hk))

theorem classify_byte {t : Text} (h : ¬ ∀ c ∈ t, IsAlnum c) (hk : ¬ ∃ c ∈ t, isKanjiClass c = true) :
    classify t = .byte :=
  (classify_of_not_alnum h).trans (if_neg (mt List.any_eq_true.1 hk))

/-! ### The errors of the segment encoder -/

/-- The count check comes first (R112, R118). -/
theorem encodeSegment_countTooLarge {t : Text} {m : Mode} (h : 2 ^ countBits m ≤ charCount t m) (l : ECLevel)
    (wk : Work) : encodeSegment t m l wk = .error (.countTooLarge (charCount t m)) :=
  if_pos h

/-- Once the count fits, an error of the data stage is the segment encoder's (R110). -/
theorem encodeSegment_of_packData_error {t : Text} {m : Mode} {wk : Work} {c : Cause}
    (hcount : charCount t m < 2 ^ countBits m) (h : wk.packData t m = .error c) (l : ECLevel) :
    encodeSegment t m l wk = .error c := by
  simp only [encodeSegment, if_neg (not_le.2 hcount), h]

/-- An error of the segment encoder ends `ENCSYM` (R132). -/
theorem exec_encsym_of_encodeSegment_error {t : Text} {l : ECLevel} {s : State} {c : Cause}
    (hs : s.operand = .text t) (h : encodeSegment t (classify t) l s.work = .error c) :
    exec (.encsym l) s = .next (s.respond (.error c)) := by
  rw [exec_encsym hs]
  simp only [encsymResult, encodeSymbolData, h]

end Sys2Proof.Machine

/-! The statements about the classifier and the Kanji texts it detects, settled. -/

namespace Sys2Proof.Proofs

open Sys2Proof.Machine Sys2Proof.Safety

/-- Settles O32: each clause is one test of the precedence order, on the mode `CLASSIFY` answers. -/
theorem classifyFollowsThePrecedence : Obligations.ClassifyFollowsThePrecedence :=
  fun _ _ hs => ⟨_, exec_classify hs, classify_numeric, classify_alphanumeric, classify_kanji, classify_byte⟩

/-- Settles O51: the segment encoder fails in Kanji mode, on the count if it does not fit 8 bits, else for want of a
packer. -/
theorem encsymOfKanjiIsUnsupported : Obligations.EncsymOfKanjiIsUnsupported := by
  intro t l s hs hkanji
  constructor
  · intro hfits
    have hcount : charCount t .kanji < 2 ^ countBits .kanji := Nat.lt_succ_of_le hfits
    refine exec_encsym_of_encodeSegment_error hs ?_
    rw [hkanji, encodeSegment_of_packData_error hcount rfl]
  · intro hlarge
    have hcount : 2 ^ countBits .kanji ≤ charCount t .kanji := hlarge
    refine exec_encsym_of_encodeSegment_error hs ?_
    rw [hkanji, encodeSegment_countTooLarge hcount, charCount]

end Sys2Proof.Proofs

/-! The segment the encoder answers, in terms of the text alone: which texts a mode has a packer for (R116, R117), and
the three packers as the groups of R113 to R115. -/

namespace Sys2Proof.Machine

open Sys2Proof.Safety

/-! ### The packers -/

/-- What every pass of a loop up to the last one keeps, the loop keeps. -/
theorem iterate_keeps_of_lt {α β : Type} {f : α → α} {view : α → β} {n : Nat} {a : α}
    (h : ∀ m < n, view (f (f^[m] a)) = view (f^[m] a)) : view (f^[n] a) = view a := by
  induction n with
  | zero => rfl
  | succ n ih => rw [Function.iterate_succ_apply', h n n.lt_succ_self, ih fun m hm => h m (hm.trans n.lt_succ_self)]

/-- The bits packed so far, then the bits of what is still to pack: what each packer's loop keeps. -/
def Work.stream {α : Type} (bits : List α → BitSeq) (l : List α) (wk : Work) : BitSeq :=
  wk.bs ++ bits (l.drop wk.group)

theorem digitAt_eq {t : Text} {p : Nat} (h : p < t.length) : digitAt t p = digitOf t[p] := by
  rw [digitAt, List.getD_eq_getElem _ _ h]
  rfl

theorem alnumAt_eq {t : Text} {p : Nat} (h : p < t.length) : alnumAt t p = tableValue t[p] := by
  rw [alnumAt, List.getD_eq_getElem _ _ h, alnumValue, alnumIndex_eq_tableIndex, tableValue]

theorem Work.packTriplet_stream {t : Text} {wk : Work} (h : wk.group + 2 < t.length) :
    (wk.packTriplet t).stream numericBits t = wk.stream numericBits t := by
  simp only [Work.stream, Work.packTriplet, appendBits_eq, List.append_assoc]
  rw [List.drop_eq_getElem_cons (by omega : wk.group < t.length),
    List.drop_eq_getElem_cons (by omega : wk.group + 1 < t.length), List.drop_eq_getElem_cons h, numericBits,
    digitAt_eq, digitAt_eq, digitAt_eq h]

theorem Work.packPair_stream {t : Text} {wk : Work} (h : wk.group + 1 < t.length) :
    (wk.packPair t).stream alnumBits t = wk.stream alnumBits t := by
  simp only [Work.stream, Work.packPair, appendBits_eq, List.append_assoc, alnumRadix]
  rw [List.drop_eq_getElem_cons (by omega : wk.group < t.length), List.drop_eq_getElem_cons h, alnumBits,
    alnumAt_eq, alnumAt_eq h]

theorem Work.packOctet_stream {d : ByteSeq} {wk : Work} (h : wk.group < d.length) :
    (wk.packOctet d).stream bitsOf d = wk.stream bitsOf d := by
  simp only [Work.stream, Work.packOctet, appendBits_eq, List.append_assoc]
  rw [List.drop_eq_getElem_cons h, List.getD_eq_getElem _ _ h, bitsOf, bitsOf, List.flatMap_cons]

theorem Work.packOctet_iterate_group (d : ByteSeq) (n : Nat) (wk : Work) :
    ((Work.packOctet d)^[n] wk).group = wk.group + n * 1 :=
  iterate_counts (view := Work.group) (fun _ => rfl) n wk

/-- Two digits that are left are one group (R113). -/
theorem numericBits_drop_of_two_left {t : Text} {p : Nat} (h : t.length = p + 2) :
    numericBits (t.drop p) = fieldBits (10 * digitAt t p + digitAt t (p + 1)) 7 := by
  rw [List.drop_eq_getElem_cons (by omega : p < t.length), List.drop_eq_getElem_cons (by omega : p + 1 < t.length),
    List.drop_of_length_le h.le, numericBits, digitAt_eq, digitAt_eq]

theorem numericBits_drop_of_one_left {t : Text} {p : Nat} (h : t.length = p + 1) :
    numericBits (t.drop p) = fieldBits (digitAt t p) 4 := by
  rw [List.drop_eq_getElem_cons (by omega : p < t.length), List.drop_of_length_le h.le, numericBits, digitAt_eq]

theorem alnumBits_drop_of_one_left {t : Text} {p : Nat} (h : t.length = p + 1) :
    alnumBits (t.drop p) = fieldBits (alnumAt t p) 6 := by
  rw [List.drop_eq_getElem_cons (by omega : p < t.length), List.drop_of_length_le h.le, alnumBits, alnumAt_eq]

theorem Work.packTriplet_iterate_stream (t : Text) (wk : Work) :
    ((Work.packTriplet t)^[t.length / 3] { wk with bs := [], group := 0 }).stream numericBits t = numericBits t := by
  refine iterate_keeps_of_lt fun m hm => Work.packTriplet_stream ?_
  rw [(Work.packTriplet_iterate t m _).2]
  dsimp only
  omega

theorem Work.packPair_iterate_stream (t : Text) (wk : Work) :
    ((Work.packPair t)^[t.length / 2] { wk with bs := [], group := 0 }).stream alnumBits t = alnumBits t := by
  refine iterate_keeps_of_lt fun m hm => Work.packPair_stream ?_
  rw [(Work.packPair_iterate t m _).2]
  dsimp only
  omega

theorem Work.packOctet_iterate_stream (d : ByteSeq) (wk : Work) :
    ((Work.packOctet d)^[d.length] { wk with bs := [], group := 0 }).stream bitsOf d = bitsOf d := by
  refine iterate_keeps_of_lt fun m hm => Work.packOctet_stream ?_
  rw [Work.packOctet_iterate_group]
  dsimp only
  omega

/-- `pack_numeric` packs the groups of R113: the loop all groups of three, then the short last one. -/
theorem Work.packNumeric_bs (t : Text) (wk : Work) : (wk.packNumeric t).bs = numericBits t := by
  have hgroup := (Work.packTriplet_iterate t (t.length / 3) { wk with bs := [], group := 0 }).2
  have hstream := Work.packTriplet_iterate_stream t wk
  dsimp only at hgroup
  simp only [Work.stream] at hstream
  simp only [Work.packNumeric]
  split_ifs with htwo hone
  · rw [← hstream, numericBits_drop_of_two_left (by omega), appendBits_eq]
  · rw [← hstream, numericBits_drop_of_one_left (by omega), appendBits_eq]
  · rw [← hstream, List.drop_of_length_le (by omega), numericBits, List.append_nil]

/-- `pack_alnum` packs the groups of R114: the loop all pairs, then the single last character. -/
theorem Work.packAlnum_bs (t : Text) (wk : Work) : (wk.packAlnum t).bs = alnumBits t := by
  have hgroup := (Work.packPair_iterate t (t.length / 2) { wk with bs := [], group := 0 }).2
  have hstream := Work.packPair_iterate_stream t wk
  dsimp only at hgroup
  simp only [Work.stream] at hstream
  simp only [Work.packAlnum]
  split_ifs with hone
  · rw [← hstream, alnumBits_drop_of_one_left (by omega), appendBits_eq]
  · rw [← hstream, List.drop_of_length_le (by omega), alnumBits, List.append_nil]

/-- `pack_bytes` packs the bits of the bytes (R115). -/
theorem Work.packBytes_bs (d : ByteSeq) (wk : Work) : (wk.packBytes d).bs = bitsOf d := by
  have hstream := Work.packOctet_iterate_stream d wk
  rwa [Work.stream, Work.packOctet_iterate_group, List.drop_of_length_le (by simp), bitsOf, List.flatMap_nil,
    List.append_nil] at hstream

/-! ### The check of R117 -/

theorem checkFits_eq_ok_iff {fits : CodePoint → Bool} {t : Text} :
    checkFits fits t = .ok () ↔ ∀ c ∈ t, fits c = true := by
  have hnone : t.findIdx? (fun c => !fits c) = none ↔ ∀ c ∈ t, fits c = true := by simp
  rw [← hnone, checkFits]
  cases t.findIdx? (fun c => !fits c) <;> simp

/-- The check names the first character that does not fit. -/
theorem checkFits_append_cons {fits : CodePoint → Bool} {pre : Text} {c : CodePoint} (hpre : ∀ d ∈ pre, fits d = true)
    (hc : ¬ fits c = true) (post : Text) : checkFits fits (pre ++ c :: post) = .error (.misfitCharacter pre.length) := by
  have hnone : pre.findIdx? (fun c => !fits c) = none := List.findIdx?_eq_none_iff.2 (by simpa using hpre)
  have hsome : (pre ++ c :: post).findIdx? (fun c => !fits c) = some pre.length := by
    simp [List.findIdx?_append, List.findIdx?_cons, hnone, hc]
  rw [checkFits, hsome]

/-- The data stage names the first character outside the alphabet of Numeric or Alphanumeric mode (R117). -/
theorem Work.packData_misfit {pre : Text} {c : CodePoint} {m : Mode}
    (h : m = .numeric ∧ (∀ d ∈ pre, IsDigit d) ∧ ¬ IsDigit c ∨
      m = .alphanumeric ∧ (∀ d ∈ pre, IsAlnum d) ∧ ¬ IsAlnum c) (post : Text) (wk : Work) :
    wk.packData (pre ++ c :: post) m = .error (.misfitCharacter pre.length) := by
  obtain ⟨rfl, hpre, hc⟩ | ⟨rfl, hpre, hc⟩ := h
  · rw [Work.packData, checkFits_append_cons (fun d hd => (isDigit_iff d).2 (hpre d hd)) (mt (isDigit_iff c).1 hc)]
  · rw [Work.packData, checkFits_append_cons (fun d hd => (isAlnum_iff d).2 (hpre d hd)) (mt (isAlnum_iff c).1 hc)]

/-! ### The segment -/

/-- The texts a mode has a packer for (R116, R117). -/
def Fits (t : Text) : Mode → Prop
  | .numeric => ∀ c ∈ t, IsDigit c
  | .alphanumeric => ∀ c ∈ t, IsAlnum c
  | .byte => True
  | .kanji => False

/-- The data bits of a text in a mode that has a packer for it (R113 to R115). -/
def dataBits (t : Text) : Mode → BitSeq
  | .numeric => numericBits t
  | .alphanumeric => alnumBits t
  | .byte => bitsOf (textBytes t)
  | .kanji => []

/-- The segment of a text in a mode (R110). -/
def segmentFor (t : Text) (m : Mode) : Segment :=
  { mode := m, mi := fieldBits (modeInd m).toNat 4, cci := fieldBits (charCount t m) (countBits m),
    data := dataBits t m }

theorem Work.packData_of_fits {t : Text} {m : Mode} (h : Fits t m) (wk : Work) :
    ∃ packed, wk.packData t m = .ok packed ∧ packed.bs = dataBits t m := by
  cases m with
  | numeric =>
    refine ⟨wk.packNumeric t, ?_, Work.packNumeric_bs t wk⟩
    rw [Work.packData, checkFits_eq_ok_iff.2 fun c hc => (isDigit_iff c).2 (h c hc)]
  | alphanumeric =>
    refine ⟨wk.packAlnum t, ?_, Work.packAlnum_bs t wk⟩
    rw [Work.packData, checkFits_eq_ok_iff.2 fun c hc => (isAlnum_iff c).2 (h c hc)]
  | byte => exact ⟨wk.packBytes (textBytes t), rfl, Work.packBytes_bs _ wk⟩
  | kanji => exact h.elim

theorem Work.fits_of_packData {t : Text} {m : Mode} {wk packed : Work} (h : wk.packData t m = .ok packed) :
    Fits t m := by
  cases m with
  | numeric =>
    simp only [Work.packData] at h
    split at h
    · cases h
    next hc => exact fun c hct => (isDigit_iff c).1 (checkFits_eq_ok_iff.1 hc c hct)
  | alphanumeric =>
    simp only [Work.packData] at h
    split at h
    · cases h
    next hc => exact fun c hct => (isAlnum_iff c).1 (checkFits_eq_ok_iff.1 hc c hct)
  | byte => trivial
  | kanji => cases h

/-- When the segment encoder answers a segment, and which one (R110). -/
theorem encodeSegment_eq_ok_iff {t : Text} {m : Mode} {l : ECLevel} {wk : Work} {g : Segment} :
    encodeSegment t m l wk = .ok g ↔ charCount t m < 2 ^ countBits m ∧ Fits t m ∧ g = segmentFor t m := by
  constructor
  · intro h
    obtain ⟨hcount, packed, hpacked, rfl⟩ := encodeSegment_ok h
    have hfits := Work.fits_of_packData hpacked
    obtain ⟨packed', hpacked', hbits⟩ := Work.packData_of_fits hfits wk
    cases hpacked.symm.trans hpacked'
    exact ⟨hcount, hfits, by rw [segmentFor, hbits]⟩
  · rintro ⟨hcount, hfits, rfl⟩
    obtain ⟨packed, hpacked, hbits⟩ := Work.packData_of_fits hfits wk
    simp only [encodeSegment, if_neg (not_le.2 hcount), hpacked, appendBits_eq, List.nil_append, hbits, segmentFor,
      modeIndBits]

theorem exec_segenc_segment {t : Text} {m : Mode} {s : State} (hs : s.operand = .text t)
    (hcount : charCount t m < 2 ^ countBits m) (hfits : Fits t m) (l : ECLevel) :
    exec (.segenc m l) s = .next (s.respond (.ok (.segment (segmentFor t m)))) := by
  rw [exec_segenc hs, segencResult, encodeSegment_eq_ok_iff.2 ⟨hcount, hfits, rfl⟩]

theorem exec_segenc_of_encodeSegment_error {t : Text} {m : Mode} {l : ECLevel} {s : State} {c : Cause}
    (hs : s.operand = .text t) (h : encodeSegment t m l s.work = .error c) :
    exec (.segenc m l) s = .next (s.respond (.error c)) := by
  rw [exec_segenc hs, segencResult, h]

/-- `SEGENC` computes the same at all levels (R111). -/
theorem outcomeOf_segenc_level (m : Mode) (l1 l2 : ECLevel) (o : SeqOperand) (wk : Work) :
    outcomeOf (.segenc m l1) o wk = outcomeOf (.segenc m l2) o wk := by
  cases o <;> rfl

/-! ### The text a segment encodes -/

/-- A field gives back a value that fits it. -/
theorem eq_of_fieldBits_eq {v v' w : Nat} (h : fieldBits v w = fieldBits v' w) (hv : v < 2 ^ w) (hv' : v' < 2 ^ w) :
    v = v' := by
  have hmod : v % 2 ^ w = v' % 2 ^ w := by rw [← valueOf_fieldBits, h, valueOf_fieldBits]
  rwa [Nat.mod_eq_of_lt hv, Nat.mod_eq_of_lt hv'] at hmod

/-- Two streams that begin with a field of one width begin with the same value. -/
theorem eq_of_fieldBits_append_eq {v v' w : Nat} {bs bs' : BitSeq} (h : fieldBits v w ++ bs = fieldBits v' w ++ bs')
    (hv : v < 2 ^ w) (hv' : v' < 2 ^ w) : v = v' ∧ bs = bs' := by
  obtain ⟨hfield, hrest⟩ := List.append_inj h (by simp)
  exact ⟨eq_of_fieldBits_eq hfield hv hv', hrest⟩

theorem alnumIndex_eq_some {c : CodePoint} (h : IsAlnum c) : alnumIndex c = some (tableValue c) := by
  obtain ⟨i, hi⟩ := Option.isSome_iff_exists.1 ((isAlnum_iff c).2 h)
  rw [tableValue, ← alnumIndex_eq_tableIndex, hi, Option.getD_some]

theorem tableValue_lt {c : CodePoint} (h : IsAlnum c) : tableValue c < 45 := alnumIndex_lt (alnumIndex_eq_some h)

theorem tableValue_injOn {c d : CodePoint} (hc : IsAlnum c) (hd : IsAlnum d) (h : tableValue c = tableValue d) :
    c = d :=
  alnumIndex_injective (alnumIndex_eq_some hc) (h ▸ alnumIndex_eq_some hd)

/-- The number of digits and the numeric groups say which digits they are: each group is the number its digits spell. -/
theorem numericBits_injOn {t u : Text} (hlen : t.length = u.length) (ht : ∀ c ∈ t, IsDigit c)
    (hu : ∀ c ∈ u, IsDigit c) (h : numericBits t = numericBits u) : t = u := by
  induction t using numericBits.induct generalizing u with
  | case1 a b c rest ih =>
    match u, hlen, hu, h with
    | a' :: b' :: c' :: rest', hlen, hu, h =>
      simp only [List.forall_mem_cons] at ht hu
      obtain ⟨ha, hb, hc, hrest⟩ := ht
      obtain ⟨ha', hb', hc', hrest'⟩ := hu
      simp only [numericBits, digitOf] at h
      obtain ⟨hvalue, hbits⟩ := eq_of_fieldBits_append_eq h (by omega) (by omega)
      simp only [List.cons.injEq, ← Char.toNat_inj]
      exact ⟨by omega, by omega, by omega, ih (by simpa using hlen) hrest hrest' hbits⟩
  | case2 a b =>
    match u, hlen, hu, h with
    | [a', b'], _, hu, h =>
      simp only [List.forall_mem_cons] at ht hu
      obtain ⟨ha, hb, -⟩ := ht
      obtain ⟨ha', hb', -⟩ := hu
      simp only [numericBits, digitOf] at h
      have hvalue := eq_of_fieldBits_eq h (by omega) (by omega)
      simp only [List.cons.injEq, ← Char.toNat_inj, and_true]
      omega
  | case3 a =>
    match u, hlen, hu, h with
    | [a'], _, hu, h =>
      have ha := List.forall_mem_singleton.1 ht
      have ha' := List.forall_mem_singleton.1 hu
      simp only [numericBits, digitOf] at h
      have hvalue := eq_of_fieldBits_eq h (by omega) (by omega)
      simp only [List.cons.injEq, ← Char.toNat_inj, and_true]
      omega
  | case4 => exact (List.length_eq_zero_iff.1 hlen.symm).symm

/-- The number of characters and the alphanumeric groups say which characters they are: a pair has their indices as its
digits to the base 45. -/
theorem alnumBits_injOn {t u : Text} (hlen : t.length = u.length) (ht : ∀ c ∈ t, IsAlnum c)
    (hu : ∀ c ∈ u, IsAlnum c) (h : alnumBits t = alnumBits u) : t = u := by
  induction t using alnumBits.induct generalizing u with
  | case1 a b rest ih =>
    match u, hlen, hu, h with
    | a' :: b' :: rest', hlen, hu, h =>
      simp only [List.forall_mem_cons] at ht hu
      obtain ⟨ha, hb, hrest⟩ := ht
      obtain ⟨ha', hb', hrest'⟩ := hu
      have hlta := tableValue_lt ha
      have hltb := tableValue_lt hb
      have hlta' := tableValue_lt ha'
      have hltb' := tableValue_lt hb'
      obtain ⟨hvalue, hbits⟩ := eq_of_fieldBits_append_eq h (by omega) (by omega)
      rw [tableValue_injOn ha ha' (by omega), tableValue_injOn hb hb' (by omega),
        ih (by simpa using hlen) hrest hrest' hbits]
  | case2 a =>
    match u, hlen, hu, h with
    | [a'], _, hu, h =>
      have ha := List.forall_mem_singleton.1 ht
      have ha' := List.forall_mem_singleton.1 hu
      have hlt := tableValue_lt ha
      have hlt' := tableValue_lt ha'
      rw [tableValue_injOn ha ha' (eq_of_fieldBits_eq h (by omega) (by omega))]
  | case3 => exact (List.length_eq_zero_iff.1 hlen.symm).symm

theorem bitsOf_injective : Function.Injective bitsOf := by
  intro a
  induction a with
  | nil =>
    intro b h
    cases b with
    | nil => rfl
    | cons y b => cases h
  | cons x a ih =>
    intro b h
    cases b with
    | nil => cases h
    | cons y b =>
      obtain ⟨hbyte, hrest⟩ := eq_of_fieldBits_append_eq h x.isLt y.isLt
      rw [BitVec.eq_of_toNat_eq hbyte, ih hrest]

/-- The bytes of a text are those of the string of its characters, and a string has its characters back. -/
theorem textBytes_injective : Function.Injective textBytes := by
  intro t u h
  have hcodes : t.flatMap String.utf8EncodeChar = u.flatMap String.utf8EncodeChar := by
    refine List.map_injective_iff.2 (fun _ _ => UInt8.toNat_inj.1) ?_
    rw [List.map_flatMap, List.map_flatMap, ← textBytes_toNat, ← textBytes_toNat, h]
  exact String.ofList_injective (String.toByteArray_inj.1 (congrArg List.toByteArray hcodes))

/-- In one mode, the segment of a text determines it. -/
theorem eq_of_segmentFor_eq {t u : Text} {m : Mode} (ht : Fits t m) (hu : Fits u m)
    (htcount : charCount t m < 2 ^ countBits m) (hucount : charCount u m < 2 ^ countBits m)
    (h : segmentFor t m = segmentFor u m) : t = u := by
  have hcount := eq_of_fieldBits_eq (congrArg Segment.cci h) htcount hucount
  have hdata : dataBits t m = dataBits u m := congrArg Segment.data h
  cases m with
  | numeric => exact numericBits_injOn hcount ht hu hdata
  | alphanumeric => exact alnumBits_injOn hcount ht hu hdata
  | byte => exact textBytes_injective (bitsOf_injective hdata)
  | kanji => exact ht.elim

end Sys2Proof.Machine

/-! The statements about the segment encoder, settled. -/

namespace Sys2Proof.Proofs

open Sys2Proof.Machine Sys2Proof.Safety

/-- Settles O37: the check of R112, then the error of the data stage, and a segment for every text that passes both. -/
theorem segencOrderOfDetection : Obligations.SegencOrderOfDetection := by
  intro t m l s n hs hn
  rw [← charCount_eq] at hn
  subst hn
  refine ⟨fun hlarge => ?_, ?_, ?_, ?_⟩
  · exact exec_segenc_of_encodeSegment_error hs (encodeSegment_countTooLarge hlarge l s.work)
  · rintro hcount rfl
    exact exec_segenc_of_encodeSegment_error hs (encodeSegment_of_packData_error hcount rfl l)
  · rintro pre c post hcount rfl hmisfit
    exact exec_segenc_of_encodeSegment_error hs
      (encodeSegment_of_packData_error hcount (Work.packData_misfit hmisfit post s.work) l)
  · intro hcount hkanji hnumeric halnum
    refine ⟨segmentFor t m, exec_segenc_segment hs hcount ?_ l⟩
    cases m with
    | numeric => exact hnumeric rfl
    | alphanumeric => exact halnum rfl
    | byte => trivial
    | kanji => exact hkanji rfl

/-- Settles O38: the groups of three, two and one digits that `pack_numeric` packs. -/
theorem segencNumericSegment : Obligations.SegencNumericSegment := by
  intro t l s hs hlen hdigits
  have hcount : charCount t .numeric < 2 ^ countBits .numeric := Nat.lt_succ_of_le hlen
  exact exec_segenc_segment hs hcount hdigits l

/-- Settles O39: the pairs that `pack_alnum` packs, their indices read from the printed table. -/
theorem segencAlphanumericSegment : Obligations.SegencAlphanumericSegment := by
  intro t l s hs hlen halnum
  have hcount : charCount t .alphanumeric < 2 ^ countBits .alphanumeric := Nat.lt_succ_of_le hlen
  exact exec_segenc_segment hs hcount halnum l

/-- Settles O40: every text fits Byte mode. -/
theorem segencByteSegment : Obligations.SegencByteSegment := by
  intro t l s hs hlen
  have hcount : charCount t .byte < 2 ^ countBits .byte := Nat.lt_succ_of_le hlen
  exact exec_segenc_segment hs hcount trivial l

/-- Settles O42: neither the level nor the working registers are read. -/
theorem segencIgnoresTheLevel : Obligations.SegencIgnoresTheLevel := by
  intro m l1 l2 s t h
  calc answer (exec (.segenc m l1) s) = answer (exec (.segenc m l2) s) := by
        rw [answer_exec, answer_exec, outcomeOf_segenc_level m l1 l2]
    _ = answer (exec (.segenc m l2) t) := answer_exec_congr _ h

/-- Settles O43: both texts have this segment, and it determines its text. -/
theorem segmentDeterminesTheText : Obligations.SegmentDeterminesTheText := by
  intro s m l t1 t2 g h1 h2
  obtain ⟨hcount1, hfits1, hg1⟩ := encodeSegment_eq_ok_iff.1 (answer_segenc_done.1 h1)
  obtain ⟨hcount2, hfits2, hg2⟩ := encodeSegment_eq_ok_iff.1 (answer_segenc_done.1 h2)
  exact eq_of_segmentFor_eq hfits1 hfits2 hcount1 hcount2 (hg1.symm.trans hg2)

end Sys2Proof.Proofs

/-! The assembler (R125 to R129) in terms of the segment alone: when it fits, and the pad bytes that follow it. -/

namespace Sys2Proof.Machine

open Sys2Proof.Safety

/-! ### The capacity -/

/-- The bytes so far are the bits of segment and terminator, rounded up (R127, R128). -/
theorem Work.streamSegment_bytes (g : Segment) (wk : Work) :
    (wk.streamSegment g).bs.length / 8 = (segmentLength g + 4 + 7) / 8 := by
  rw [(Work.streamSegment_bs g wk).2]
  omega

/-- A segment that does not fit is an error with the bytes so far (R128). -/
theorem Work.assemble_of_gt {g : Segment} {l : ECLevel} (h : 8 * capacity l < segmentLength g + 4) (wk : Work) :
    wk.assemble g l = .error (.overCapacity ((segmentLength g + 4 + 7) / 8) (capacity l)) := by
  have hover : (segmentLength g + 4 + 7) / 8 > capacity l := by omega
  simp only [Work.assemble, Work.streamSegment_bytes, if_pos hover]

theorem exec_assemble_of_gt {g : Segment} {l : ECLevel} {s : State} (hs : s.operand = .seg g)
    (h : 8 * capacity l < segmentLength g + 4) :
    exec (.assemble l) s = .next (s.respond (.error (.overCapacity ((segmentLength g + 4 + 7) / 8) (capacity l)))) := by
  rw [exec_assemble hs, assembleResult, Work.assemble_of_gt h]

/-! ### The pad bytes -/

/-- The first `n` pad bytes, `PAD0` and `PAD1` in turn (R129). -/
def padBytes (n : Nat) : ByteSeq :=
  (List.range n).map fun p => if p % 2 = 0 then pad0 else pad1

@[simp] theorem padBytes_length (n : Nat) : (padBytes n).length = n := by
  simp [padBytes]

theorem padBytes_succ (n : Nat) : padBytes (n + 1) = padBytes n ++ [if n % 2 = 0 then pad0 else pad1] := by
  rw [padBytes, List.range_succ, List.map_append, List.map_singleton, padBytes]

theorem padBytes_getD {n p : Nat} (h : p < n) : (padBytes n).getD p 0#8 = if p % 2 = 0 then pad0 else pad1 := by
  rw [List.getD_eq_getElem _ _ (by simpa using h)]
  simp [padBytes]

/-- From `PAD0` on, the pad sequencer appends the pad bytes, and its phase is the parity of their number (R129). -/
theorem Work.padOne_iterate {wk : Work} (h : wk.padPhase = .pad0Next) (n : Nat) :
    (Work.padOne^[n] wk).cwbuf = wk.cwbuf ++ padBytes n ∧
      (Work.padOne^[n] wk).padPhase = if n % 2 = 0 then .pad0Next else .pad1Next := by
  induction n with
  | zero => exact ⟨(List.append_nil _).symm, h⟩
  | succ n ih =>
    obtain ⟨hbuf, hphase⟩ := ih
    rw [Function.iterate_succ_apply', padBytes_succ, ← List.append_assoc, ← hbuf, Work.padOne, hphase]
    obtain heven | hodd := Nat.mod_two_eq_zero_or_one n
    · simp [heven, Nat.succ_mod_two_eq_one_iff.2 heven]
    · simp [hodd, Nat.succ_mod_two_eq_zero_iff.2 hodd]

/-- A segment that fits is assembled: the codeword view of its stream, then pad bytes up to the capacity (R125). -/
theorem Work.assemble_of_le {g : Segment} {l : ECLevel} (h : segmentLength g + 4 ≤ 8 * capacity l) (wk : Work) :
    ∃ done, wk.assemble g l = .ok done ∧ done.cwbuf =
      codewords (wk.streamSegment g).bs ++ padBytes (capacity l - (wk.streamSegment g).bs.length / 8) := by
  have hfits : ¬ (wk.streamSegment g).bs.length / 8 > capacity l := by rw [Work.streamSegment_bytes]; omega
  rw [Work.assemble]
  exact ⟨_, if_neg hfits, (Work.padOne_iterate rfl _).1⟩

theorem exec_assemble_of_le {g : Segment} {l : ECLevel} {s : State} (hs : s.operand = .seg g)
    (h : segmentLength g + 4 ≤ 8 * capacity l) :
    exec (.assemble l) s = .next (s.respond (.ok (.codewords
      (codewords (s.work.streamSegment g).bs ++ padBytes (capacity l - (s.work.streamSegment g).bs.length / 8))))) := by
  obtain ⟨done, hdone, hbuf⟩ := Work.assemble_of_le h s.work
  rw [exec_assemble hs, assembleResult, hdone, ← hbuf]

end Sys2Proof.Machine

/-! The statements about the assembler, settled. -/

namespace Sys2Proof.Proofs

open Sys2Proof.Machine Sys2Proof.Safety

/-- Settles O44: the aligned byte length is within the capacity exactly when the bits before alignment are. -/
theorem assembleCapacityCheck : Obligations.AssembleCapacityCheck :=
  fun _ _ _ hs => ⟨fun hle => ⟨_, exec_assemble_of_le hs hle⟩, exec_assemble_of_gt hs⟩

/-- Settles O45: the codeword view of the byte-aligned stream keeps its bits, and the pad bytes come after it. -/
theorem assembleLayout : Obligations.AssembleLayout := by
  intro g l s hs hle
  obtain ⟨hbits, hlen⟩ := Work.streamSegment_bs g s.work
  have hbytes := Work.streamSegment_bytes g s.work
  have haligned : (s.work.streamSegment g).bs.length % 8 = 0 := by omega
  obtain ⟨hview, hkept⟩ := codewordViewKeepsTheBits _ haligned
  refine ⟨_, exec_assemble_of_le hs hle, ?_, (8 - (segmentLength g + 4) % 8) % 8, by omega, by omega, ?_, ?_⟩
  · rw [List.length_append, hview, padBytes_length]
    omega
  · rw [← hlen, ← hview, List.take_left, hkept, hbits]
    rfl
  · intro p hp
    rw [← hlen] at hp ⊢
    rw [List.getD_append_right _ _ _ _ (by omega), hview, Nat.add_sub_cancel_left, padBytes_getD (by omega), pad0, pad1]

end Sys2Proof.Proofs

/-! The stages of `ENCSYM` (R130, R132), each on the answer of the one before it, and which texts pass all of them
(R131, R133). -/

namespace Sys2Proof.Machine

open Sys2Proof.Safety

/-! ### The answers of the stages -/

theorem responseOf_eq_raised_iff {e : Except Cause Result} {c : Cause} : responseOf e = .raised c ↔ e = .error c := by
  cases e <;> simp [responseOf]

theorem answer_respond (s : State) (e : Except Cause Result) : answer (.next (s.respond e)) = some (responseOf e) := rfl

theorem answer_classify_done {t : Text} {s : State} {m : Mode} :
    answer (exec .classify (asking s (.text t))) = some (.done (.mode m)) ↔ classify t = m := by
  rw [exec_classify (State.asking_operand s (.text t)), answer_respond]
  simp [responseOf]

/-- `SEGENC` raises the cause the segment encoder fails with. -/
theorem answer_segenc_raised {t : Text} {m : Mode} {l : ECLevel} {s : State} {c : Cause} :
    answer (exec (.segenc m l) (asking s (.text t))) = some (.raised c) ↔ encodeSegment t m l s.work = .error c := by
  rw [exec_segenc (State.asking_operand s (.text t)), answer_respond, Option.some_inj, responseOf_eq_raised_iff,
    State.asking_work, segencResult]
  cases encodeSegment t m l s.work <;> simp

/-- `ASSEMBLE` raises the cause the assembler fails with. -/
theorem answer_assemble_raised {g : Segment} {l : ECLevel} {s : State} {c : Cause} :
    answer (exec (.assemble l) (asking s (.seg g))) = some (.raised c) ↔ s.work.assemble g l = .error c := by
  rw [exec_assemble (State.asking_operand s (.seg g)), answer_respond, Option.some_inj, responseOf_eq_raised_iff,
    State.asking_work, assembleResult]
  cases s.work.assemble g l <;> simp

/-- `ASSEMBLE` answers codewords when the assembler ends with them. -/
theorem answer_assemble_codewords {g : Segment} {l : ECLevel} {s : State} {d : ByteSeq} :
    answer (exec (.assemble l) (asking s (.seg g))) = some (.done (.codewords d)) ↔
      ∃ done, s.work.assemble g l = .ok done ∧ done.cwbuf = d := by
  cases h : s.work.assemble g l with
  | error c => simp [answer_assemble_raised.2 h]
  | ok done => simp [answer_assemble_done h]

/-! ### The stages in turn -/

/-- An error of the assembler ends `ENCSYM` (R132). -/
theorem exec_encsym_of_assemble_error {t : Text} {l : ECLevel} {s : State} {g : Segment} {c : Cause}
    (hs : s.operand = .text t) (hg : encodeSegment t (classify t) l s.work = .ok g)
    (h : s.work.assemble g l = .error c) : exec (.encsym l) s = .next (s.respond (.error c)) := by
  rw [exec_encsym hs]
  simp only [encsymResult, encodeSymbolData, hg, h]

/-- The last stage of `ENCSYM` ends it as `RSENC` of the assembler's codewords ends (R130). -/
theorem exec_encsym_of_assembled {t : Text} {l : ECLevel} {s : State} {g : Segment} {done : Work}
    (hs : s.operand = .text t) (hg : encodeSegment t (classify t) l s.work = .ok g)
    (h : s.work.assemble g l = .ok done) :
    exec (.encsym l) s = .next (s.respond (rsencResult done.cwbuf (nec l) s.work)) := by
  rw [exec_encsym hs, encsymResult, encodeSymbolData, rsencResult]
  simp only [hg, h]
  cases checkRs done.cwbuf.length (nec l) with
  | error c => rfl
  | ok u => rw [rsEncode_congr _ _ done s.work]

/-! ### The number of error-correction codewords -/

/-- The bounds of R131, whatever the open parameter is. -/
theorem nec_bounds (l : ECLevel) : 1 ≤ nec l ∧ capacity l + nec l ≤ 255 := by
  cases l <;> simp only [nec, capacity] <;> omega

/-- The command word's field `K` holds `NEC`. -/
theorem ofNat_nec_toNat (l : ECLevel) : (BitVec.ofNat 8 (nec l)).toNat = nec l := by
  have := nec_bounds l
  exact Nat.mod_eq_of_lt (by omega)

/-! ### The texts that fit -/

/-- A text fits the mode it classifies as, unless that is Kanji (R100, R117). -/
theorem fits_classify {t : Text} (h : classify t ≠ .kanji) : Fits t (classify t) := by
  by_cases hdigit : ∀ c ∈ t, IsDigit c
  · rwa [classify_numeric hdigit]
  by_cases halnum : ∀ c ∈ t, IsAlnum c
  · rwa [classify_alphanumeric halnum hdigit]
  by_cases hkanji : ∃ c ∈ t, isKanjiClass c = true
  · exact absurd (classify_kanji halnum hkanji) h
  · rw [classify_byte halnum hkanji]
    trivial

/-- The number of data bits of a count of `n`: ten for three digits, eleven for two characters, both rounded up, and
eight for a byte (R113 to R115). -/
def dataLength : Mode → Nat → Nat
  | .numeric, n => (10 * n + 2) / 3
  | .alphanumeric, n => (11 * n + 1) / 2
  | .byte, n => 8 * n
  | .kanji, _ => 0

theorem dataBits_length (t : Text) (m : Mode) : (dataBits t m).length = dataLength m (charCount t m) := by
  cases m with
  | numeric =>
    rw [dataBits, ← Work.packNumeric_bs t Work.discarded, Work.packNumeric_length, dataLength, charCount]
    obtain hmod | hmod | hmod : t.length % 3 = 0 ∨ t.length % 3 = 1 ∨ t.length % 3 = 2 := by omega
    all_goals (simp [hmod]; omega)
  | alphanumeric =>
    rw [dataBits, ← Work.packAlnum_bs t Work.discarded, Work.packAlnum_length, dataLength, charCount]
    omega
  | byte => rw [dataBits, ← Work.packBytes_bs _ Work.discarded, Work.packBytes_length, dataLength, charCount]
  | kanji => rfl

theorem segmentFor_length (t : Text) (m : Mode) :
    segmentLength (segmentFor t m) = 4 + countBits m + dataLength m (charCount t m) := by
  simp [segmentLength, segmentFor, dataBits_length]

/-- The table of R133 is the largest count whose field holds it and whose segment and terminator fit the capacity. -/
theorem le_longest_iff {m : Mode} (hm : m ≠ .kanji) (l : ECLevel) (n : Nat) :
    n ≤ longest m l ↔ n < 2 ^ countBits m ∧ 4 + countBits m + dataLength m n + 4 ≤ 8 * capacity l := by
  cases m with
  | numeric => cases l <;> simp only [longest, countBits, dataLength, capacity] <;> omega
  | alphanumeric => cases l <;> simp only [longest, countBits, dataLength, capacity] <;> omega
  | byte => cases l <;> simp only [longest, countBits, dataLength, capacity] <;> omega
  | kanji => exact absurd rfl hm

/-- An input up to the table's entry passes every stage (R133). -/
theorem exec_encsym_of_le_longest {t : Text} {l : ECLevel} {s : State} (hs : s.operand = .text t)
    (hkanji : classify t ≠ .kanji) (h : charCount t (classify t) ≤ longest (classify t) l) :
    ∃ cw, exec (.encsym l) s = .next (s.respond (.ok (.codewords cw))) ∧ cw.length = capacity l + nec l := by
  obtain ⟨hcount, hcapacity⟩ := (le_longest_iff hkanji l _).1 h
  rw [← segmentFor_length] at hcapacity
  obtain ⟨done, hdone, -⟩ := Work.assemble_of_le hcapacity s.work
  have hlen := Work.assemble_length hdone
  have hnec := nec_bounds l
  have hcheck : checkRs done.cwbuf.length (nec l) = .ok () := by
    rw [checkRs_ok, hlen]
    exact ⟨by cases l <;> decide, hnec⟩
  refine ⟨systematic done.cwbuf (nec l), ?_, by rw [systematic_length, hlen]⟩
  rw [exec_encsym_of_assembled hs (encodeSegment_eq_ok_iff.2 ⟨hcount, fits_classify hkanji, rfl⟩) hdone,
    rsencResult_ok hcheck]

/-- A longer input fails on its count (R112) or in the assembler (R128), with `CapacityExceeded` both times. -/
theorem exec_encsym_of_longest_lt {t : Text} {l : ECLevel} {s : State} (hs : s.operand = .text t)
    (hkanji : classify t ≠ .kanji) (h : longest (classify t) l < charCount t (classify t)) :
    ∃ c, exec (.encsym l) s = .next (s.respond (.error c)) ∧ c.status = .capacityExceeded := by
  by_cases hcount : charCount t (classify t) < 2 ^ countBits (classify t)
  · have hcapacity : 8 * capacity l < segmentLength (segmentFor t (classify t)) + 4 := by
      rw [segmentFor_length]
      exact not_le.1 fun hle => h.not_ge ((le_longest_iff hkanji l _).2 ⟨hcount, hle⟩)
    have hg := encodeSegment_eq_ok_iff (l := l) (wk := s.work) |>.2 ⟨hcount, fits_classify hkanji, rfl⟩
    exact ⟨_, exec_encsym_of_assemble_error hs hg (Work.assemble_of_gt hcapacity s.work), rfl⟩
  · exact ⟨_, exec_encsym_of_encodeSegment_error hs (encodeSegment_countTooLarge (not_lt.1 hcount) l s.work), rfl⟩

end Sys2Proof.Machine

/-! The statements about the pipeline, settled. -/

namespace Sys2Proof.Proofs

open Sys2Proof.Machine Sys2Proof.Safety

/-- Settles O47: the first stage that fails ends the operation, and the last one reads the codewords alone. -/
theorem encsymIsThePipeline : Obligations.EncsymIsThePipeline := by
  intro t l s m hm
  obtain rfl := answer_classify_done.1 hm
  have hs : (asking s (.text t)).operand = .text t := State.asking_operand s _
  refine ⟨fun c hc => ?_, fun g hg => ⟨fun c hc => ?_, fun d hd => ?_⟩⟩
  · rw [exec_encsym_of_encodeSegment_error hs (answer_segenc_raised.1 hc)]
    rfl
  · rw [exec_encsym_of_assemble_error hs (answer_segenc_done.1 hg) (answer_assemble_raised.1 hc)]
    rfl
  · obtain ⟨done, hdone, rfl⟩ := answer_assemble_codewords.1 hd
    rw [exec_encsym_of_assembled hs (answer_segenc_done.1 hg) hdone, exec_rsenc (State.asking_operand s _),
      ofNat_nec_toNat]
    rfl

/-- Settles O48: the table's entries are the counts at which field and capacity are full. -/
theorem longestInputs : Obligations.LongestInputs :=
  fun _ _ _ hs hkanji => ⟨exec_encsym_of_le_longest hs hkanji, exec_encsym_of_longest_lt hs hkanji⟩

/-- `ENCSYM` of any text ends without `InvalidInput`: a Kanji text is not encoded, any other fits its mode, so that its
length alone decides (R131). -/
theorem exec_encsym_not_invalidInput {t : Text} {s : State} (hs : s.operand = .text t) (l : ECLevel) :
    ∃ e, exec (.encsym l) s = .next (s.respond e) ∧ (responseOf e).status ≠ .invalidInput := by
  by_cases hkanji : classify t = .kanji
  · obtain ⟨hunsupported, htooLarge⟩ := encsymOfKanjiIsUnsupported t l s hs hkanji
    obtain hle | hgt := le_or_gt t.length 255
    · exact ⟨_, hunsupported hle, nofun⟩
    · exact ⟨_, htooLarge hgt, nofun⟩
  · obtain hle | hgt := le_or_gt (charCount t (classify t)) (longest (classify t) l)
    · obtain ⟨cw, hexec, -⟩ := exec_encsym_of_le_longest hs hkanji hle
      exact ⟨_, hexec, nofun⟩
    · obtain ⟨c, hexec, hstatus⟩ := exec_encsym_of_longest_lt hs hkanji hgt
      exact ⟨_, hexec, fun hinvalid => nomatch hstatus.symm.trans hinvalid⟩

/-- Settles O50: by the bounds of the open parameter, and by how `ENCSYM` of a text can end. -/
theorem encsymNeverInvalidInput : Obligations.EncsymNeverInvalidInput := by
  refine ⟨nec_bounds, fun l s r h => ?_⟩
  cases hs : s.operand with
  | text t =>
    obtain ⟨e, hexec, hstatus⟩ := exec_encsym_not_invalidInput hs l
    rw [hexec, answer_respond] at h
    exact Option.some.inj h ▸ hstatus
  | none | data _ | seg _ => simp [answer_exec, outcomeOf, hs] at h

end Sys2Proof.Proofs

/-! The statement about the error causes, settled. -/

namespace Sys2Proof.Proofs

open Sys2Proof.Machine

/-- Settles O52: each cause is its own case of `Cause.status`, which does not read what the cause carries. -/
theorem causesHaveTheirStatus : Obligations.CausesHaveTheirStatus :=
  ⟨rfl, rfl, fun _ => rfl, fun _ => rfl, fun _ => rfl, fun _ _ => rfl, rfl⟩

end Sys2Proof.Proofs

/-! What each step that moves the reset line does, and what none does while the line is asserted (R160). -/

namespace Sys2Proof.Machine

/-- Asserting reset enters reset, whatever the block is doing. -/
theorem step_assertReset {s : State} {rest : List HostAction} (hh : s.host = .assertReset :: rest) :
    step s = .next (s.enterReset rest) := by
  rw [step, hh]

/-- Releasing reset leaves reset. -/
theorem step_releaseReset {s : State} {rest : List HostAction} (hh : s.host = .releaseReset :: rest) :
    step s = .next (s.leaveReset rest) := by
  rw [step, hh]

/-- Asserting reset while a well-formed request is in progress leaves what asserting it between operations leaves. -/
theorem step_issueThenReset {s : State} {r : Request} {rest : List HostAction} {i : Instr}
    (hh : s.host = .issueThenReset r :: rest) (hr : s.inReset = false) (hd : decode r.cmd = .ok i)
    (hwf : i.wellFormedWith r.operand = true) : step s = .next (s.enterReset rest) := by
  simp [step, hh, serveAbandoned, hr, hd, hwf, State.enterReset]

/-- A request during reset is refused, abandoned or not. -/
theorem step_request_inReset {s : State} {r : Request} {rest : List HostAction}
    (hh : s.host = .issue r :: rest ∨ s.host = .issueThenReset r :: rest) (hr : s.inReset = true) :
    step s = .refused .requestDuringReset := by
  obtain hissue | habandon := hh
  · rw [step_issue hissue, serve, if_pos hr]
  · simp [step, habandon, serveAbandoned, hr]

end Sys2Proof.Machine

/-! The statements about reset and the first operation after it, settled. -/

namespace Sys2Proof.Proofs

open Sys2Proof.Machine Sys2Proof.Safety

/-- Settles O8: one rule per move of the reset line, and after the line is released the request alone decides the
response (R21). -/
theorem resetBehaviour : Obligations.ResetBehaviour := by
  refine ⟨fun s rest hh => ?assert, fun s r rest i hh hr hd hwf => ?abandon, fun s r rest hh hr => ?refuse,
    fun s rest hh => ?release, fun s t u r rest ht hu => ?between⟩
  case assert => exact ⟨_, step_assertReset hh, rfl, rfl, rfl, rfl⟩
  case abandon => exact ⟨_, step_issueThenReset hh hr hd hwf, rfl, rfl, rfl, rfl⟩
  case refuse => exact step_request_inReset hh hr
  case release => exact step_releaseReset hh
  case between =>
    rw [step_assertReset rfl] at ht
    cases ht
    rw [step_releaseReset (State.enterReset_host _ _)] at hu
    cases hu
    exact (responseIsAFunctionOfTheRequest _ _ r rest rest rfl rfl rfl rfl).1

/-- Settles O10: the word of an operation decodes to it, so the first step runs it on its own operand, and a
well-formed request is answered (R167). -/
theorem anyOperationRunsFirstAfterReset : Obligations.AnyOperationRunsFirstAfterReset := by
  intro i o hwf
  rw [step_issue_decoded (r := ⟨encode i, o⟩) rfl rfl (Laws.decode_encode i)]
  exact (everyLegalRequestIsAnswered i (State.accept _ _ _)).1 hwf

end Sys2Proof.Proofs
